-- ==== Sys2Proof/Word.lean ====
section
/-! DEFINITION. The word and byte types of the MMH3-128 hasher core.

Every datapath value is an unsigned 64-bit integer (00_scope.md section 4); `+` and `*` on `BitVec 64` are the
additions and multiplications modulo 2^64 of R4, `>>>` and `<<<` the logical shifts of R5. -/

namespace Sys2Proof

/-- `u64` of 00_scope.md section 4. -/
abbrev Word := BitVec 64

/-- `u8` of 00_scope.md section 4. -/
abbrev Byte := BitVec 8

end Sys2Proof
end

