-- ==== Sys2Proof/Config.lean ====
section
/-! DEFINITION. What an implementation fixes (the OPEN parameters of 00_scope.md R3) and the free value of the model.

The parameters are carried by State (field `cfg`), so that every statement over all states ranges over them (log entry 5). -/

namespace Sys2Proof

/-- The OPEN parameters of R3: `BASE`, `ADDR_W` and `IBUF_BYTES`. -/
structure Config where
  base : Nat
  addrW : Nat
  ibufBytes : Nat
deriving DecidableEq, Repr

/-- The constraints R3 puts on the parameters: `IBUF_BYTES` is a multiple of 8 with `8 <= IBUF_BYTES <= 2^32`, and
`BASE + 0x1000 + IBUF_BYTES <= 2^ADDR_W`. -/
abbrev Config.WellFormed (c : Config) : Prop :=
  c.ibufBytes % 8 = 0 ∧ 8 ≤ c.ibufBytes ∧ c.ibufBytes ≤ 2 ^ 32 ∧ c.base + 0x1000 + c.ibufBytes ≤ 2 ^ c.addrW

/-- The values the reset state carries: 4096 bytes of IBUF, as 95_test_vectors.md takes them, at bus address 0 of a
64-bit bus. DESIGN CHOICE (log entry 5): the spec leaves all three open. -/
def Config.chosen : Config := ⟨0, 64, 4096⟩

/-- FREE VALUE (log entry 3): the byte `IBUF[j]` holds after the RESET number `epoch` while the HOST has not written it
(93_implementation_defined.md I1, 70_reset_and_hazards.md R254). It has no body: nothing can be proved of its value. -/
opaque Config.ibufDraw : (epoch : Nat) → (j : Nat) → Byte

end Sys2Proof
end

