-- ==== Sys2Proof/Syntax.lean ====
section
/-! DEFINITION. The commands of the opcode table (30_encoding.md R102), one constructor per row. -/

namespace Sys2Proof

/-- A decoded command. The only operand of the encoding is TAIL's length `n` (30_encoding.md R103); every other
operand is implicit (R104). -/
inductive Instr where
  /-- INIT: start a message (R128). -/
  | init
  /-- BLOCK: absorb the 16-byte block in BLK (R129). -/
  | block
  /-- TAIL n: absorb the tail bytes `BLK[0..n-1]` (R156). -/
  | tail (n : Nat)
  /-- FINAL: finish the message and produce the digest (R179). -/
  | final
  /-- HASH: `computeHash` over an IBUF window (R200). -/
  | hash
deriving DecidableEq, Repr

end Sys2Proof
end

