-- ==== Sys2Proof/WellFormed.lean ====
section
/-! DEFINITION. Which commands have an encoding: the tail length fits the four bits of TLEN (30_encoding.md R103). -/

namespace Sys2Proof

/-- The check on a command's operands: `0 <= TLEN <= 15` (R103). -/
def Instr.wellFormed : Instr → Bool
  | .init => true
  | .block => true
  | .tail n => decide (n ≤ 15)
  | .final => true
  | .hash => true

end Sys2Proof
end

