-- ==== Sys2Proof/Decode.lean ====
section
/-! DEFINITION. The command decoder, total on all 2^64 words (30_encoding.md R106), and the encoder (R101, R102, R108). -/

namespace Sys2Proof

/-- Why a word is no command (the cases of 30_encoding.md R107). The hardware reports one code for all of them. -/
inductive Illegal where
  /-- A bit of RSVD (63:8) is set (R105). -/
  | reserved
  /-- OPC is 0x0 or 0x6 to 0xF (R102). -/
  | opcode
  /-- TLEN is nonzero and OPC is not TAIL's (R101). -/
  | tlen
deriving DecidableEq, Repr

/-- What the decoder says of a word. -/
inductive Decoded where
  | command (i : Instr)
  | illegal (why : Illegal)
deriving DecidableEq, Repr

/-- Bits 3:0 of the command word (R101). -/
def opcField (w : Word) : BitVec 4 := w.extractLsb' 0 4

/-- Bits 7:4 of the command word (R101). -/
def tlenField (w : Word) : BitVec 4 := w.extractLsb' 4 4

/-- Bits 63:8 of the command word (R101). -/
def rsvdField (w : Word) : BitVec 56 := w.extractLsb' 8 56

/-- A command that takes no operand: TLEN must be 0 (R106). -/
def plainCommand (w : Word) (i : Instr) : Decoded :=
  if tlenField w = 0 then .command i else .illegal .tlen

/-- `Decode(w)` of 30_encoding.md R106. -/
def decode (w : Word) : Decoded :=
  if rsvdField w ≠ 0 then .illegal .reserved
  else
    match (opcField w).toNat with
    | 0x1 => plainCommand w .init
    | 0x2 => plainCommand w .block
    | 0x3 => .command (.tail (tlenField w).toNat)
    | 0x4 => plainCommand w .final
    | 0x5 => plainCommand w .hash
    | _ => .illegal .opcode

/-- The one format, `RSVD TLEN OPC` with RSVD = 0 (R101). -/
def cmd64 (tlen opc : BitVec 4) : Word := (0#56 ++ tlen) ++ opc

/-- The canonical word of a command (R108). -/
def encode : Instr → Word
  | .init => cmd64 0 0x1
  | .block => cmd64 0 0x2
  | .tail n => cmd64 (BitVec.ofNat 4 n) 0x3
  | .final => cmd64 0 0x4
  | .hash => cmd64 0 0x5

/-- The 64-bit word whose low `nbits` bits are those of `w` and whose other bits are 0. -/
def tableWord (nbits w : Nat) : Word := BitVec.ofNat 64 (w % 2 ^ nbits)

/-- The command the decoder reads from a word numbered as spec/opcode_table.json numbers it: one 64-bit word, bit 0 its
least significant bit (R100, R101). -/
def decodeTableWord (nbits w : Nat) : Option Instr :=
  match decode (tableWord nbits w) with
  | .command i => some i
  | .illegal _ => none

end Sys2Proof
end

