-- ==== Sys2Proof/Machine/State.lean ====
section
/-! DEFINITION. The state of the block as plain data (10_state.md), what its agents can do, and its reset state
(70_reset_and_hazards.md R250). -/

namespace Sys2Proof.Machine

/-- STATUS.PHASE (10_state.md R27). -/
inductive Phase where
  | idle | absorb | tailed | done
deriving DecidableEq, Repr

/-- The codes STATUS.ERR can hold (60_exceptions.md R220). The values 5 to 15 are never written
(93_implementation_defined.md I6), so no state holds one. -/
inductive ErrCode where
  | none | nullInput | invalidArgument | illegalCommand | phaseError
deriving DecidableEq, Repr

/-- PEND, the pending command (10_state.md R43). STATUS.BUSY is `valid` (R25). -/
structure Pend where
  valid : Bool
  word : Word
deriving DecidableEq, Repr

/-- The width of a bus transaction: 1, 2, 4 or 8 bytes (20_memory.md R61). -/
inductive Width where
  | b1 | b2 | b4 | b8
deriving DecidableEq, Repr

/-- A HOST transaction at a byte offset from BASE (20_memory.md R60, R61). A write's value is its low `8n` bits
(log entry 8). -/
inductive Txn where
  | read (a : Nat) (n : Width)
  | write (a : Nat) (n : Width) (v : Word)
deriving DecidableEq, Repr

/-- The block's answer to a transaction (20_memory.md R61). `busErr` carries no data (93_implementation_defined.md I3). -/
inductive Response where
  /-- OK of a read, with its data (zero-extended to 64 bits, log entry 8). -/
  | data (v : Word)
  /-- OK of a write. -/
  | ok
  /-- BUSERR. -/
  | busErr
deriving DecidableEq, Repr

/-- A step of one of the three agents (10_state.md R20). The HOST's transactions, the CORE's turns and RESET come in
one total order (20_memory.md R76), which State's `agenda` holds (log entry 1). -/
inductive Event where
  /-- The CORE may complete the pending command now. -/
  | core
  /-- The HOST performs a transaction. -/
  | host (t : Txn)
  /-- RESET is asserted. -/
  | reset
deriving DecidableEq, Repr

/-- The bytes of IBUF the HOST has written since the last RESET, by rising index. Canonical form: the indices rise
strictly, so each occurs once; an index not listed has no recorded value (log entry 3). -/
abbrev Memory := List Host.Cell

/-- The whole state. -/
structure State where
  /-- STATUS.OVR (R26). -/
  ovr : Bool
  /-- STATUS.PHASE (R27). -/
  phase : Phase
  /-- STATUS.ERR (R28). -/
  err : ErrCode
  /-- CTRL.BUFV (R30). -/
  bufv : Bool
  /-- SEED, u64 (R32). -/
  seed : Word
  /-- OFF, read as s64 by HASH (R33). -/
  off : Word
  /-- LENGTH, read as s64 by HASH (R34). -/
  length : Word
  /-- BUFLEN, u64 (R35). -/
  buflen : Word
  /-- H1 (R36). -/
  h1 : Word
  /-- H2 (R37). -/
  h2 : Word
  /-- MLEN (R38). -/
  mlen : Word
  /-- BLK[0..15] (R39). -/
  blk : Vector Byte 16
  /-- DIGEST[0..15] (R41). -/
  digest : Vector Byte 16
  /-- IBUF (R42). -/
  ibuf : Memory
  /-- PEND (R43). -/
  pend : Pend
  /-- The OPEN parameters (00_scope.md R3); the model's own field, changed by no step. -/
  cfg : Config
  /-- The number of RESETs since power-on; the model's own field, it picks the draw of unwritten IBUF bytes. -/
  epoch : Nat
  /-- The steps still to come; the model's own field. -/
  agenda : List Event
  /-- The responses given so far, newest first; the model's own field. -/
  responses : List Response
deriving DecidableEq, Repr

/-- Why the machine stops. -/
inductive Fault where
  /-- A CORE `MemRead` outside IBUF (20_memory.md R67, 93_implementation_defined.md I4). HASH would raise it; its
  argument checks make it unreachable. Safe: the machine stops. -/
  | memReadOutside
deriving DecidableEq, Repr

/-- Why the machine has no meaning for a command. -/
inductive Refusal where
  /-- The command has no meaning in this model. No arm of `exec` raises it. Safe: the machine stops. -/
  | notModelled (mnemonic : String)
deriving DecidableEq, Repr

/-- The machine after power-on: every register at its reset value (R250), IBUF unspecified, no command pending.
PEND.word is 0 by DESIGN CHOICE (log entry 4). -/
def State.reset : State where
  ovr := false
  phase := .idle
  err := .none
  bufv := false
  seed := 0
  off := 0
  length := 0
  buflen := 0
  h1 := 0
  h2 := 0
  mlen := 0
  blk := Vector.replicate 16 0
  digest := Vector.replicate 16 0
  ibuf := []
  pend := ⟨false, 0⟩
  cfg := Config.chosen
  epoch := 0
  agenda := []
  responses := []

end Sys2Proof.Machine
end

