-- ==== Sys2Proof/Machine/Flags.lean ====
section
/-! DEFINITION. The fields of STATUS and CTRL (10_state.md R25 to R30). The block has no condition codes (R46). -/

namespace Sys2Proof.Machine

/-- The value of STATUS.PHASE (10_state.md R27). -/
def Phase.code : Phase → BitVec 2
  | .idle => 0
  | .absorb => 1
  | .tailed => 2
  | .done => 3

/-- The value of STATUS.ERR (60_exceptions.md R220). -/
def ErrCode.code : ErrCode → BitVec 4
  | .none => 0
  | .nullInput => 1
  | .invalidArgument => 2
  | .illegalCommand => 3
  | .phaseError => 4

/-- STATUS.BUSY = PEND.valid (10_state.md R25). -/
abbrev State.busy (s : State) : Bool := s.pend.valid

/-- The word a read of STATUS returns: `zero[63:8] ERR[7:4] PHASE[3:2] OVR[1] BUSY[0]` (10_state.md R23, R25 to R29). -/
def State.statusWord (s : State) : Word :=
  (((0#56 ++ s.err.code) ++ s.phase.code) ++ BitVec.ofBool s.ovr) ++ BitVec.ofBool s.busy

/-- The word a read of CTRL returns: `zero[63:1] BUFV[0]` (10_state.md R30). -/
def State.ctrlWord (s : State) : Word := 0#63 ++ BitVec.ofBool s.bufv

/-- OVR after a write of `v` to STATUS: bit 1 clears it, 0 leaves it (10_state.md R26). -/
def ovrAfterStatusWrite (ovr : Bool) (v : Word) : Bool := ovr && !v.getLsbD 1

end Sys2Proof.Machine
end

