-- ==== Sys2Proof/Machine/Operands.lean ====
section
/-! DEFINITION. Reading operands: byte views of words, the two byte orders (00_scope.md R7, R8; 20_memory.md R62, R63),
the rotation (00_scope.md R6), signed operands and the 16-byte registers BLK and DIGEST. -/

namespace Sys2Proof.Machine

/-- Byte `i` of a word: its bits `8i+7 : 8i` (20_memory.md R62). -/
def byteAt (v : Word) (i : Nat) : Byte := v.extractLsb' (8 * i) 8

/-- `zext64(b)` (00_scope.md section 4). -/
def zext64 (b : Byte) : Word := b.setWidth 64

/-- `SUM over i in 0..n-1 of zext64(f i) << 8i`: the little-endian value of `n` bytes (20_memory.md R64). -/
def leBytes (f : Nat → Byte) : Nat → Word
  | 0 => 0
  | n + 1 => leBytes f n + zext64 (f n) <<< (8 * n)

/-- `LE64(A, j)` (00_scope.md R7). -/
def le64 (A : Nat → Byte) (j : Nat) : Word := leBytes (fun i => A (j + i)) 8

/-- `BSWAP64(x)`: byte `j` of the result is byte `7-j` of `x` (00_scope.md R8). -/
def bswap64 (x : Word) : Word := leBytes (fun j => byteAt x (7 - j)) 8

/-- `rotl64(x, r) = (x << r) | (x >> (64 - r))` (00_scope.md R6). -/
def rotl64 (x : Word) (r : Nat) : Word := (x <<< r) ||| (x >>> (64 - r))

/-- `int(v)` of an s64 operand, OFF or LENGTH (10_state.md R33, R34). -/
def int64 (v : Word) : Int := v.toInt

/-- A list of bytes as the array `A[0..]` of the spec. The datapath reads it only below its length. -/
def arrayOf (bs : List Byte) (j : Nat) : Byte := bs.getD j 0

/-- `BLK[j]` or `DIGEST[j]`, for `j < 16` (10_state.md R39, R41). -/
def regByte (B : Vector Byte 16) (j : Nat) : Byte := if h : j < 16 then B[j] else 0

/-- The first `n` bytes of a 16-byte register as a list (41_tail_absorber.md R155). -/
def regBytes (B : Vector Byte 16) (n : Nat) : List Byte := B.toList.take n

/-- A 16-byte register after an `n`-byte write of `v` at byte `j` (20_memory.md R62, R73). -/
def setRegBytes (B : Vector Byte 16) (j n : Nat) (v : Word) : Vector Byte 16 :=
  Vector.ofFn fun k => if j ≤ k.val ∧ k.val < j + n then byteAt v (k.val - j) else B[k.val]

/-- How many bytes a transaction covers (20_memory.md R61). -/
def Width.bytes : Width → Nat
  | .b1 => 1
  | .b2 => 2
  | .b4 => 4
  | .b8 => 8

end Sys2Proof.Machine
end

