-- ==== Sys2Proof/Machine/Ops.lean ====
section
/-! DEFINITION. The shared operations: the input buffer, the updates a command makes, and how a command ends. -/

namespace Sys2Proof.Machine

/-- The byte recorded for an index; `none` where the HOST has written none since RESET. -/
def Memory.lookup : Memory → Nat → Option Byte
  | [], _ => none
  | (k, b) :: m, a => if a = k then some b else Memory.lookup m a

/-- Record one byte, keeping the indices rising. -/
def Memory.insert : Memory → Nat → Byte → Memory
  | [], a, v => [(a, v)]
  | (k, b) :: m, a, v =>
    if a < k then (a, v) :: (k, b) :: m
    else if a = k then (a, v) :: m
    else (k, b) :: Memory.insert m a v

/-- `MemWrite(a, n, v)`: `IBUF[a+i] <- v[8i+7 : 8i]` for i in 0..n-1 (20_memory.md R64, R66). -/
def Memory.write (m : Memory) (a : Nat) (v : Word) : Nat → Memory
  | 0 => m
  | n + 1 => Memory.insert (Memory.write m a v n) (a + n) (byteAt v n)

/-- The canonical form: the indices rise strictly. -/
abbrev Memory.wf (m : Memory) : Prop := List.Pairwise (fun x y => x.1 < y.1) m

/-- `IBUF[j]`: the byte the HOST wrote since RESET, or else the byte drawn at that RESET
(93_implementation_defined.md I1; log entry 3). This is the one definition of what an unlisted index reads as. -/
def State.ibufByte (s : State) (j : Nat) : Byte :=
  (Memory.lookup s.ibuf j).getD (Config.ibufDraw s.epoch j)

/-- `IBUF[a .. a+n-1]` as a byte list. -/
def State.ibufBytes (s : State) (a n : Nat) : List Byte := (List.range n).map fun i => s.ibufByte (a + i)

/-- `MemRead(a, n)`, the CORE's read port; `none` outside IBUF (20_memory.md R67). -/
def State.memRead (s : State) (a n : Nat) : Option (List Byte) :=
  if a + n ≤ s.cfg.ibufBytes then some (s.ibufBytes a n) else none

/-- Set the two accumulators. -/
def State.setLanes (s : State) (h : Word × Word) : State := { s with h1 := h.1, h2 := h.2 }

/-- Set the message length. -/
def State.setMlen (s : State) (v : Word) : State := { s with mlen := v }

/-- Set the sequencer phase. -/
def State.setPhase (s : State) (p : Phase) : State := { s with phase := p }

/-- Set the digest register, all 16 bytes together (42_finalization.md R180). -/
def State.setDigest (s : State) (D : Vector Byte 16) : State := { s with digest := D }

/-- The end of a completion step: ERR is written and PEND.valid cleared (10_state.md R28, R43). -/
def State.complete (s : State) (e : ErrCode) : State := { s with err := e, pend := { s.pend with valid := false } }

/-- Take the next entry off the agenda. -/
def State.setAgenda (s : State) (l : List Event) : State := { s with agenda := l }

/-- Record the block's answer to a transaction. -/
def State.respond (s : State) (r : Response) : State := { s with responses := r :: s.responses }

/-- A dropped write: OVR is set and nothing else changes (20_memory.md R69). -/
def State.overrun (s : State) : State := { s with ovr := true }

/-- `raise E()`: the one way a command fails. ERR takes the code, PEND.valid is cleared, nothing else changes
(60_exceptions.md R224). It is no trap: nothing is saved and nothing is returned from (R229). -/
def raise (e : ErrCode) (s : State) : Host.Outcome State Fault Refusal := .next (s.complete e)

/-- A command succeeds: ERR <- NONE. All its writes take effect together (10_state.md R40). -/
def succeed (s : State) : Host.Outcome State Fault Refusal := .next (s.complete .none)

/-- RESET (70_reset_and_hazards.md R250): every register takes its reset value, a pending command is discarded, and
every IBUF byte is drawn anew. The parameters and the model's own record of the outside world stay (log entry 13). -/
def State.resetStep (s : State) : State :=
  { State.reset with cfg := s.cfg, epoch := s.epoch + 1, agenda := s.agenda, responses := s.responses }

end Sys2Proof.Machine
end

