-- ==== Sys2Proof/Machine/BlockMixer.lean ====
section
/-! DEFINITION. Seed propagation and the block mixer: INIT and BLOCK (40_block_mixer.md). -/

namespace Sys2Proof.Machine

/-- `c1` (R120). -/
def c1 : Word := 0x87c37b91114253d5

/-- `c2` (R120). -/
def c2 : Word := 0x4cf5ad432745937f

/-- `KMix1` (R122). -/
def kMix1 (k : Word) : Word :=
  let k := k * c1
  let k := rotl64 k 31
  k * c2

/-- `KMix2` (R123). -/
def kMix2 (k : Word) : Word :=
  let k := k * c2
  let k := rotl64 k 33
  k * c1

/-- `BlockMix` (R125). Lane 1 reads the old h2, lane 2 the new h1 (R126). -/
def blockMix (h : Word × Word) (k1 k2 : Word) : Word × Word :=
  let h1 := h.1 ^^^ kMix1 k1
  let h1 := rotl64 h1 27
  let h1 := h1 + h.2
  let h1 := h1 * 5 + 0x52dce729
  let h2 := h.2 ^^^ kMix2 k2
  let h2 := rotl64 h2 31
  let h2 := h2 + h1
  let h2 := h2 * 5 + 0x38495ab5
  (h1, h2)

/-- Seed propagation: both lanes start at the seed (R121). -/
def seedLanes (seed : Word) : Word × Word := (seed, seed)

/-- INIT (R128). -/
def execInit (s : State) : Host.Outcome State Fault Refusal :=
  succeed (((s.setLanes (seedLanes s.seed)).setMlen 0).setPhase .absorb)

/-- BLOCK (R129). -/
def execBlock (s : State) : Host.Outcome State Fault Refusal :=
  if s.phase = .absorb then
    let k1 := le64 (regByte s.blk) 0
    let k2 := le64 (regByte s.blk) 8
    succeed ((s.setLanes (blockMix (s.h1, s.h2) k1 k2)).setMlen (s.mlen + 16))
  else raise .phaseError s

end Sys2Proof.Machine
end

