-- ==== Sys2Proof/Machine/TailAbsorber.lean ====
section
/-! DEFINITION. The tail-byte absorber: TAIL (41_tail_absorber.md). -/

namespace Sys2Proof.Machine

/-- The loop of R152 over the tail bytes, `i` from `n-1` down to 0, packing each byte into `(k1, k2)`. -/
def tailKeys (T : Nat → Byte) : Nat → Word × Word → Word × Word
  | 0, k => k
  | i + 1, k =>
    tailKeys T i
      (if 8 ≤ i then (k.1, k.2 ^^^ (zext64 (T i) <<< (8 * (i - 8))))
       else (k.1 ^^^ (zext64 (T i) <<< (8 * i)), k.2))

/-- `TailAbsorb` (R152): only the key mix and the XOR (R153). -/
def tailAbsorb (h : Word × Word) (T : Nat → Byte) (tailLen : Nat) : Word × Word :=
  let k := tailKeys T tailLen (0, 0)
  let h2 := if 9 ≤ tailLen then h.2 ^^^ kMix2 k.2 else h.2
  let h1 := if 1 ≤ tailLen then h.1 ^^^ kMix1 k.1 else h.1
  (h1, h2)

/-- TAIL n (R156). The bytes `BLK[n..15]` are not read (R155). -/
def execTail (n : Nat) (s : State) : Host.Outcome State Fault Refusal :=
  if s.phase = .absorb then
    let h := tailAbsorb (s.h1, s.h2) (arrayOf (regBytes s.blk n)) n
    succeed (((s.setLanes h).setMlen (s.mlen + BitVec.ofNat 64 n)).setPhase .tailed)
  else raise .phaseError s

end Sys2Proof.Machine
end

