-- ==== Sys2Proof/Machine/Finalization.lean ====
section
/-! DEFINITION. The finalization mixer and the output packer: FINAL (42_finalization.md). -/

namespace Sys2Proof.Machine

/-- `FMix64` (R170). -/
def fMix64 (k : Word) : Word :=
  let k := k ^^^ (k >>> 33)
  let k := k * 0xff51afd7ed558ccd
  let k := k ^^^ (k >>> 33)
  let k := k * 0xc4ceb9fe1a85ec53
  k ^^^ (k >>> 33)

/-- `FinalMix` (R174), in the order R172 asks for. -/
def finalMix (h : Word × Word) (len : Word) : Word × Word :=
  let h1 := h.1 ^^^ len
  let h2 := h.2 ^^^ len
  let h1 := h1 + h2
  let h2 := h2 + h1
  let h1 := fMix64 h1
  let h2 := fMix64 h2
  let h1 := h1 + h2
  let h2 := h2 + h1
  (h1, h2)

/-- `Pack` (R177): each accumulator most significant byte first, h1 before h2 (R176). -/
def pack (h : Word × Word) : Vector Byte 16 :=
  Vector.ofFn fun j => if j.val < 8 then byteAt h.1 (7 - j.val) else byteAt h.2 (15 - j.val)

/-- The phases in which FINAL is legal (R179). -/
def finalLegal (p : Phase) : Bool := p = .absorb || p = .tailed

/-- FINAL (R179). MLEN is unchanged. -/
def execFinal (s : State) : Host.Outcome State Fault Refusal :=
  if finalLegal s.phase then
    let h := finalMix (s.h1, s.h2) s.mlen
    succeed (((s.setLanes h).setDigest (pack h)).setPhase .done)
  else raise .phaseError s

end Sys2Proof.Machine
end

