-- ==== Sys2Proof/Machine/OneShot.lean ====
section
/-! DEFINITION. The one-shot hash: MMH3, Digest (00_scope.md R10) and HASH (43_oneshot_hash.md). -/

namespace Sys2Proof.Machine

/-- The accumulators after the first `nblocks` blocks of `M`, in increasing block index (40_block_mixer.md R130,
43_oneshot_hash.md R205). -/
def absorbBlocks (seed : Word) (M : Nat → Byte) : (nblocks : Nat) → Word × Word
  | 0 => seedLanes seed
  | b + 1 => blockMix (absorbBlocks seed M b) (le64 M (16 * b)) (le64 M (16 * b + 8))

/-- `MMH3(s, M)` (00_scope.md R10). -/
def mmh3 (seed : Word) (M : List Byte) : Word × Word :=
  let n := M.length
  let h := absorbBlocks seed (arrayOf M) (n / 16)
  let h := tailAbsorb h (arrayOf (M.drop (16 * (n / 16)))) (n % 16)
  finalMix h (BitVec.ofNat 64 n)

/-- `Digest(s, M) = Pack(MMH3(s, M))` (00_scope.md R10). -/
def digestOf (seed : Word) (M : List Byte) : Vector Byte 16 := pack (mmh3 seed M)

/-- HASH's window passes the four checks of R202, on mathematical integers. -/
abbrev State.WindowOk (s : State) : Prop :=
  0 ≤ int64 s.off ∧ 0 ≤ int64 s.length ∧ int64 s.off + int64 s.length ≤ (s.buflen.toNat : Int) ∧
    int64 s.off + int64 s.length ≤ (s.cfg.ibufBytes : Int)

/-- HASH (R200). The checks come first, NULL_INPUT before INVALID_ARGUMENT (R201 to R203, 60_exceptions.md R226). -/
def execHash (s : State) : Host.Outcome State Fault Refusal :=
  if s.bufv = false then raise .nullInput s
  else if s.WindowOk then
    match s.memRead (int64 s.off).toNat (int64 s.length).toNat with
    | none => .fault .memReadOutside
    | some M =>
      let h := mmh3 s.seed M
      succeed ((((s.setLanes h).setMlen s.length).setDigest (pack h)).setPhase .done)
  else raise .invalidArgument s

end Sys2Proof.Machine
end

