-- ==== Sys2Proof/Machine/Dispatch.lean ====
section
/-! DEFINITION. One arm per command. -/

namespace Sys2Proof.Machine

def exec (i : Instr) (s : State) : Host.Outcome State Fault Refusal :=
  match i with
  | .init => Sys2Proof.Machine.execInit s
  | .block => Sys2Proof.Machine.execBlock s
  | .tail n => Sys2Proof.Machine.execTail n s
  | .final => Sys2Proof.Machine.execFinal s
  | .hash => Sys2Proof.Machine.execHash s

end Sys2Proof.Machine
end

