-- ==== Sys2Proof/Machine/HostBus.lean ====
section
/-! DEFINITION. The host bus: address map, legal accesses, reads and writes (20_memory.md; 10_state.md R23). -/

namespace Sys2Proof.Machine

/-- What a legal access addresses; for a byte region, the index of its first byte (R68). -/
inductive Region where
  | cmd | status | ctrl | hashSize | seed | off | length | buflen | h1 | h2 | mlen
  | blk (j : Nat)
  | digest (j : Nat)
  | ibuf (j : Nat)
deriving DecidableEq, Repr

/-- The 64-bit register at an offset below 0x60 (10_state.md R23); 0x58 is reserved. -/
def registerAt (a : Nat) : Option Region :=
  match a with
  | 0x00 => some .cmd
  | 0x08 => some .status
  | 0x10 => some .ctrl
  | 0x18 => some .hashSize
  | 0x20 => some .seed
  | 0x28 => some .off
  | 0x30 => some .length
  | 0x38 => some .buflen
  | 0x40 => some .h1
  | 0x48 => some .h2
  | 0x50 => some .mlen
  | _ => none

/-- The region an `n`-byte access at offset `a` addresses, or `none` where no access of that width may be made (R68):
the registers take 8 bytes only, BLK, DIGEST and IBUF any naturally aligned width. -/
def regionOf (c : Config) (a : Nat) (n : Width) : Option Region :=
  if a < 0x60 then (if n = .b8 then registerAt a else none)
  else if a % n.bytes ≠ 0 then none
  else if a < 0x70 then some (.blk (a - 0x60))
  else if a < 0x80 then some (.digest (a - 0x70))
  else if 0x1000 ≤ a ∧ a + n.bytes ≤ 0x1000 + c.ibufBytes then some (.ibuf (a - 0x1000))
  else none

/-- The regions that take a write; a write to any other is a BUSERR (R68). -/
def Region.writable : Region → Bool
  | .cmd | .status | .ctrl | .seed | .off | .length | .buflen | .blk _ | .ibuf _ => true
  | .hashSize | .h1 | .h2 | .mlen | .digest _ => false

/-- The data of an `n`-byte read (R62, R64, R70, R72; 10_state.md R24 to R41). -/
def State.readRegion (s : State) (n : Width) : Region → Word
  | .cmd => 0
  | .status => s.statusWord
  | .ctrl => s.ctrlWord
  | .hashSize => 128
  | .seed => s.seed
  | .off => s.off
  | .length => s.length
  | .buflen => s.buflen
  | .h1 => s.h1
  | .h2 => s.h2
  | .mlen => s.mlen
  | .blk j => leBytes (fun i => regByte s.blk (j + i)) n.bytes
  | .digest j => leBytes (fun i => regByte s.digest (j + i)) n.bytes
  | .ibuf j => leBytes (fun i => s.ibufByte (j + i)) n.bytes

/-- The effect of an `n`-byte write that is not dropped (R64, R73; 10_state.md R24 to R39). A write to CMD issues the
word (10_state.md R43). A region that is not writable is left as it is. -/
def State.writeRegion (s : State) (n : Width) (v : Word) : Region → State
  | .cmd => { s with pend := ⟨true, v⟩ }
  | .status => { s with ovr := ovrAfterStatusWrite s.ovr v }
  | .ctrl => { s with bufv := v.getLsbD 0 }
  | .seed => { s with seed := v }
  | .off => { s with off := v }
  | .length => { s with length := v }
  | .buflen => { s with buflen := v }
  | .blk j => { s with blk := setRegBytes s.blk j n.bytes v }
  | .ibuf j => { s with ibuf := Memory.write s.ibuf j v n.bytes }
  | .hashSize | .h1 | .h2 | .mlen | .digest _ => s

/-- `Read(a, n)`: no side effect (R70). -/
def busRead (a : Nat) (n : Width) (s : State) : Response :=
  match regionOf s.cfg a n with
  | none => .busErr
  | some r => .data (s.readRegion n r)

/-- `Write(a, n, v)` (R68, R69): a BUSERR changes nothing; while busy a legal write is dropped and sets OVR, but for a
write to STATUS. -/
def busWrite (a : Nat) (n : Width) (v : Word) (s : State) : State × Response :=
  match regionOf s.cfg a n with
  | none => (s, .busErr)
  | some r =>
    if r.writable = false then (s, .busErr)
    else if s.busy = true ∧ r ≠ .status then (s.overrun, .ok)
    else (s.writeRegion n v r, .ok)

/-- A HOST transaction: the state after it and the block's answer (R61). -/
def busTxn (t : Txn) (s : State) : State × Response :=
  match t with
  | .read a n => (s, busRead a n s)
  | .write a n v => busWrite a n v s

/-- The HOST's step: the transaction takes effect and its answer is recorded (log entry 7). -/
def hostStep (t : Txn) (s : State) : State := (busTxn t s).1.respond (busTxn t s).2

end Sys2Proof.Machine
end

