-- ==== Sys2Proof/Machine/Step.lean ====
section
/-! DEFINITION. One step of the block: the next agent of the agenda acts (10_state.md R20, 20_memory.md R76). -/

namespace Sys2Proof.Machine

/-- The CORE's completion step, enabled when PEND.valid = 1 (10_state.md R43): it runs `Decode(PEND.word)`, and an
illegal word raises ILLEGAL_COMMAND (30_encoding.md R106, R107). -/
def completionStep (s : State) : Host.Outcome State Fault Refusal :=
  match decode s.pend.word with
  | .command i => exec i s
  | .illegal _ => raise .illegalCommand s

/-- The CORE's turn: it completes a pending command and otherwise does nothing (log entry 2). -/
def coreTurn (s : State) : Host.Outcome State Fault Refusal :=
  if s.busy then completionStep s else .next s

/-- One step. With nothing left on the agenda the CORE has its turn, so a pending command does complete (weak
fairness, 70_reset_and_hazards.md R262) and an idle block keeps its state (60_exceptions.md R236). -/
def step (s : State) : Host.Outcome State Fault Refusal :=
  match s.agenda with
  | [] => coreTurn s
  | .core :: l => coreTurn (s.setAgenda l)
  | .host t :: l => .next (hostStep t (s.setAgenda l))
  | .reset :: l => .next (s.setAgenda l).resetStep

/-- `s` with a command word issued and the CORE's turn next, so that the next step runs exactly that command. The word
stands for the HOST's write to CMD (log entry 9). -/
def State.withFetchWord (s : State) (nbits w : Nat) : State :=
  { s with pend := ⟨true, tableWord nbits w⟩, agenda := .core :: s.agenda }

end Sys2Proof.Machine
end

