-- ==== Sys2Proof/Safety.lean ====
section
/-! DEFINITION. What counts as a sound state and a safe run, the access table of the bus, and a streamed message, in the
terms the statements use. -/

namespace Sys2Proof.Machine

/-- The invariant of the block.
The IBUF record is canonical and lies inside IBUF, and the parameters meet 00_scope.md R3.
IDLE: no message since reset, so accumulators, length and digest are as reset leaves them (10_state.md R27, R41).
ABSORB: only whole blocks have been absorbed since INIT (10_state.md R38).
DONE: DIGEST is the packed pair of accumulators (10_state.md R27, R36, R37). -/
structure State.Inv (s : State) : Prop where
  ibufCanonical : Memory.wf s.ibuf
  ibufInside : ∀ c ∈ s.ibuf, c.1 < s.cfg.ibufBytes
  parameters : s.cfg.WellFormed
  idleFresh : s.phase = .idle → s.h1 = 0 ∧ s.h2 = 0 ∧ s.mlen = 0 ∧ s.digest = Vector.replicate 16 0
  absorbWholeBlocks : s.phase = .absorb → s.mlen.toNat % 16 = 0
  doneDigest : s.phase = .done → s.digest = pack (s.h1, s.h2)

/-- The HOST has taken no BUSERR so far: past one, a host program is at fault (93_implementation_defined.md I3). -/
def State.noBusErr (s : State) : Bool := !s.responses.contains .busErr

/-- The "legal reads" column of 20_memory.md R68: an `n`-byte read at offset `a`. -/
abbrev LegalRead (c : Config) (a n : Nat) : Prop :=
  (n = 8 ∧ a ∈ [0x00, 0x08, 0x10, 0x18, 0x20, 0x28, 0x30, 0x38, 0x40, 0x48, 0x50]) ∨
  (n ∈ [1, 2, 4, 8] ∧ a % n = 0 ∧
    ((0x60 ≤ a ∧ a ≤ 0x6F) ∨ (0x70 ≤ a ∧ a ≤ 0x7F) ∨ (0x1000 ≤ a ∧ a < 0x1000 + c.ibufBytes)))

/-- The "legal writes" column of 20_memory.md R68: an `n`-byte write at offset `a`. -/
abbrev LegalWrite (c : Config) (a n : Nat) : Prop :=
  (n = 8 ∧ a ∈ [0x00, 0x08, 0x10, 0x20, 0x28, 0x30, 0x38]) ∨
  (n ∈ [1, 2, 4, 8] ∧ a % n = 0 ∧
    ((0x60 ≤ a ∧ a ≤ 0x6F) ∨ (0x1000 ≤ a ∧ a < 0x1000 + c.ibufBytes)))

/-- The next command of a sequence, run only once the last one has completed with ERR = 0 (43_oneshot_hash.md R206). -/
def thenCommand (o : Host.Outcome State Fault Refusal) (f : State → Host.Outcome State Fault Refusal) :
    Host.Outcome State Fault Refusal :=
  match o with
  | .next t => if t.err = .none then f t else .next t
  | .fault r => .fault r
  | .refused r => .refused r

/-- The HOST has put `B` in BLK. -/
def State.stage (s : State) (B : Nat → Byte) : State := { s with blk := Vector.ofFn fun j => B j }

/-- INIT, then BLOCK for each of the first `nblocks` blocks of `M`, each staged in BLK (43_oneshot_hash.md R206). -/
def streamBlocks (s : State) (M : Nat → Byte) : (nblocks : Nat) → Host.Outcome State Fault Refusal
  | 0 => exec .init s
  | b + 1 => thenCommand (streamBlocks s M b) fun t => exec .block (t.stage fun j => M (16 * b + j))

/-- The whole streamed message of `n` bytes: INIT, the blocks, TAIL with its tail bytes staged and `pad` in the bytes of
BLK after them, FINAL (43_oneshot_hash.md R206). -/
def streamMessage (s : State) (M : Nat → Byte) (n : Nat) (pad : Nat → Byte) : Host.Outcome State Fault Refusal :=
  thenCommand
    (thenCommand (streamBlocks s M (n / 16)) fun t =>
      exec (.tail (n % 16)) (t.stage fun j => if j < n % 16 then M (16 * (n / 16) + j) else pad j))
    fun t => exec .final t

/-- The streamed message without its TAIL (43_oneshot_hash.md R206). -/
def streamWithoutTail (s : State) (M : Nat → Byte) (n : Nat) : Host.Outcome State Fault Refusal :=
  thenCommand (streamBlocks s M (n / 16)) fun t => exec .final t

end Sys2Proof.Machine
end

