-- ==== Sys2Proof/Certificates/Slice0/Obligations.lean ====
section
/-! DEFINITION. The statements about the MMH3-128 hasher core that the provers settle. Nothing is proved here.

A completed command is written out as the whole next state, so that each such statement is the command's result, its
completion and its frame at once. -/

open Sys2Proof Sys2Proof.Machine

/-! ### Steps and decoding -/

/-- 10_state.md R43: the completion step, enabled when PEND.valid = 1, runs the command PEND.word decodes to. Two cases
of a step are completions, and only these are stated here. The CORE's turn comes first on the agenda: the agenda is log
entry 1 (DESIGN CHOICE). Nothing is left on the agenda: that a pending command then completes is log entry 2 (DEDUCED).
With a HOST transaction or RESET next, the step is the one OtherStepsAreHostResetOrIdle gives. -/
def Obligations.StepRunsThePendingCommand : Prop :=
  ∀ (s : State) (l : List Event) (i : Instr), s.pend.valid = true → decode s.pend.word = .command i →
    (s.agenda = [] → step s = exec i s) ∧
    (s.agenda = .core :: l → step s = exec i { s with agenda := l })

/-- 10_state.md R20, 20_memory.md R76, 60_exceptions.md R236: what a step is when it is not a completion. The agenda is
log entry 1 (DESIGN CHOICE), the record of responses log entry 7 (DESIGN CHOICE). That a turn of the CORE with nothing
pending changes no register is log entry 2 (DEDUCED), the model's form of "enabled exactly when PEND.valid = 1". -/
def Obligations.OtherStepsAreHostResetOrIdle : Prop :=
  ∀ (s : State) (l : List Event) (x : Txn),
    (s.agenda = .host x :: l →
      step s = .next { (busTxn x { s with agenda := l }).1 with
        responses := (busTxn x { s with agenda := l }).2 :: s.responses }) ∧
    (s.agenda = .reset :: l → step s = .next (State.resetStep { s with agenda := l })) ∧
    (s.agenda = .core :: l → s.pend.valid = false → step s = .next { s with agenda := l }) ∧
    (s.agenda = [] → s.pend.valid = false → step s = .next s)

/-- The HOST writes a command's canonical word to CMD of an idle block, which issues it, and the CORE's turn comes: the
command runs (10_state.md R43; 30_encoding.md R106, R108). The agenda is log entry 1 and the record of responses log
entry 7, both DESIGN CHOICE. -/
def Obligations.IssuedCommandRunsAtCompletion : Prop :=
  ∀ (s : State) (i : Instr) (l : List Event), i.wellFormed = true → s.pend.valid = false →
    s.agenda = .host (.write 0x00 .b8 (encode i)) :: .core :: l →
    ∃ t, step s = .next t ∧
      t = { s with agenda := .core :: l, pend := ⟨true, encode i⟩, responses := .ok :: s.responses } ∧
      step t = exec i { t with agenda := l }

/-- 30_encoding.md R101, R102, R106: a word decodes to a command exactly when the command has an encoding and the word is
its canonical word, so no bit of the word is ignored and no word has two meanings. -/
def Obligations.DecodeAndEncodeAgree : Prop :=
  ∀ (w : Word) (i : Instr), decode w = .command i ↔ i.wellFormed = true ∧ encode i = w

/-- 30_encoding.md R107: which words are illegal, that they issue, and how they complete. The completion is stated of
`step`, in its two cases: the CORE's turn next on the agenda, which is log entry 1 (DESIGN CHOICE), and an empty agenda,
which lets a pending command complete by log entry 2 (DEDUCED). -/
def Obligations.IllegalWordsIssueAndCompleteWithCode3 : Prop :=
  (∀ w : Word,
    ((∃ why, decode w = .illegal why) ↔
      (w.extractLsb' 0 4 = 0 ∨ 6 ≤ (w.extractLsb' 0 4).toNat ∨ w.extractLsb' 8 56 ≠ 0 ∨
        (w.extractLsb' 4 4 ≠ 0 ∧ w.extractLsb' 0 4 ≠ 3))) ∧
    (∀ i, decode w = .command i →
      i = .init ∨ i = .block ∨ i = .final ∨ i = .hash ∨ ∃ n, n ≤ 15 ∧ i = .tail n) ∧
    (∀ why, decode w = .illegal why → ∀ (s : State) (l : List Event),
      (s.pend.valid = false → busTxn (.write 0x00 .b8 w) s = ({ s with pend := ⟨true, w⟩ }, .ok)) ∧
      (s.pend = ⟨true, w⟩ → s.agenda = [] →
        step s = .next { s with err := .illegalCommand, pend := ⟨false, w⟩ }) ∧
      (s.pend = ⟨true, w⟩ → s.agenda = .core :: l →
        step s = .next { s with agenda := l, err := .illegalCommand, pend := ⟨false, w⟩ }))) ∧
  ∃ why, decode 0 = .illegal why

/-- 30_encoding.md R108. -/
def Obligations.CanonicalWordsDecode : Prop :=
  decode 0x0000000000000001 = .command .init ∧ encode .init = 0x0000000000000001 ∧
  decode 0x0000000000000002 = .command .block ∧ encode .block = 0x0000000000000002 ∧
  (∀ n, n ≤ 15 → decode (0x0000000000000003 ||| BitVec.ofNat 64 n <<< 4) = .command (.tail n) ∧
    encode (.tail n) = (0x0000000000000003 ||| BitVec.ofNat 64 n <<< 4)) ∧
  decode 0x0000000000000004 = .command .final ∧ encode .final = 0x0000000000000004 ∧
  decode 0x0000000000000005 = .command .hash ∧ encode .hash = 0x0000000000000005 ∧
  encode (.tail 5) = 0x0000000000000053 ∧ encode (.tail 12) = 0x00000000000000C3

/-! ### The datapath -/

/-- 00_scope.md R6. -/
def Obligations.RotationMovesEveryBit : Prop :=
  (∀ (x : Word) (r : Nat), r ∈ [27, 31, 33] →
    rotl64 x r = ((x <<< r) ||| (x >>> (64 - r))) ∧
    ∀ i, i < 64 → (rotl64 x r).getLsbD i = x.getLsbD ((i + 64 - r) % 64)) ∧
  rotl64 0x0123456789abcdef 27 = 0x3c4d5e6f78091a2b

/-- 00_scope.md R7. -/
def Obligations.LittleEndianDecode : Prop :=
  (∀ (A : Nat → Byte) (j : Nat),
    (le64 A j).toNat = ∑ i ∈ Finset.range 8, (A (j + i)).toNat * 2 ^ (8 * i) ∧
    ∀ i, i < 8 → byteAt (le64 A j) i = A (j + i)) ∧
  le64 (arrayOf [0x00, 0x01, 0x02, 0x03, 0x04, 0x05, 0x06, 0x07]) 0 = 0x0706050403020100

/-- 00_scope.md R8, and that reversing twice is no change. -/
def Obligations.ByteSwapReversesBytes : Prop :=
  ∀ x : Word, (∀ j, j < 8 → byteAt (bswap64 x) j = byteAt x (7 - j)) ∧ bswap64 (bswap64 x) = x

/-- 40_block_mixer.md R122, R123, with the constants of R120. -/
def Obligations.KeyMixers : Prop :=
  (∀ k : Word, kMix1 k = rotl64 (k * 0x87c37b91114253d5) 31 * 0x4cf5ad432745937f ∧
    kMix2 k = rotl64 (k * 0x4cf5ad432745937f) 33 * 0x87c37b91114253d5) ∧
  kMix1 0 = 0 ∧ kMix1 1 = 0x34e09d0b6bdefe38 ∧ kMix1 0xffffffffffffffff = 0x11cc7f70ecdb6e49 ∧
  kMix2 0 = 0 ∧ kMix2 1 = 0x4e26f5539bb7c37e

/-- 40_block_mixer.md R125, with the constants of R124: lane 1 from the old h2, lane 2 from the new h1. -/
def Obligations.BlockMixer : Prop :=
  ∀ h1 h2 k1 k2 : Word,
    (blockMix (h1, h2) k1 k2).1 = (rotl64 (h1 ^^^ kMix1 k1) 27 + h2) * 5 + 0x0000000052dce729 ∧
    (blockMix (h1, h2) k1 k2).2 =
      (rotl64 (h2 ^^^ kMix2 k2) 31 + (blockMix (h1, h2) k1 k2).1) * 5 + 0x0000000038495ab5

/-- 41_tail_absorber.md R151. -/
def Obligations.TailPacking : Prop :=
  ∀ (T : Nat → Byte) (n : Nat), n ≤ 15 →
    (∀ i, i < 8 →
      byteAt (tailKeys T n (0, 0)).1 i = (if i < n then T i else 0) ∧
      byteAt (tailKeys T n (0, 0)).2 i = (if 8 + i < n then T (8 + i) else 0)) ∧
    (tailKeys T n (0, 0)).2.extractLsb' 56 8 = 0 ∧
    tailKeys T n (0, 0) =
      (le64 (fun i => if i < n then T i else 0) 0, le64 (fun i => if i < n then T i else 0) 8)

/-- 41_tail_absorber.md R152 to R154, R157: the absorber XORs the mixed keys of the zero-padded tail into the lanes and
does nothing else, and the guards at 9 and 1 bytes change no result, as the mix of a zero key is zero. -/
def Obligations.TailAbsorbOnlyXorsTheMixedKeys : Prop :=
  ∀ (h1 h2 : Word) (T : Nat → Byte) (n : Nat), n ≤ 15 →
    let k1 := le64 (fun i => if i < n then T i else 0) 0
    let k2 := le64 (fun i => if i < n then T i else 0) 8
    tailAbsorb (h1, h2) T n = (if 1 ≤ n then h1 ^^^ kMix1 k1 else h1, if 9 ≤ n then h2 ^^^ kMix2 k2 else h2) ∧
    tailAbsorb (h1, h2) T n = (h1 ^^^ kMix1 k1, h2 ^^^ kMix2 k2)

/-- 42_finalization.md R173. -/
def Obligations.MixersAreBijections : Prop :=
  Function.Bijective fMix64 ∧ Function.Bijective kMix1 ∧ Function.Bijective kMix2 ∧
  Function.Bijective (fun k : Word => k ^^^ (k >>> 33)) ∧
  Function.Bijective (fun k : Word => rotl64 k 31) ∧ Function.Bijective (fun k : Word => rotl64 k 33) ∧
  c1.getLsbD 0 = true ∧ c2.getLsbD 0 = true ∧
  (0xff51afd7ed558ccd : Word).getLsbD 0 = true ∧ (0xc4ceb9fe1a85ec53 : Word).getLsbD 0 = true ∧
  fMix64 0 = 0 ∧ fMix64 1 = 0xb456bcfc34c2cb2c ∧ fMix64 0xffffffffffffffff = 0x64b5720b4b825f21

/-- 42_finalization.md R170 and R174, in the order of R172. -/
def Obligations.FinalizationMixer : Prop :=
  (∀ k : Word,
    let a := (k ^^^ (k >>> 33)) * 0xff51afd7ed558ccd
    let b := (a ^^^ (a >>> 33)) * 0xc4ceb9fe1a85ec53
    fMix64 k = b ^^^ (b >>> 33)) ∧
  ∀ h1 h2 len : Word,
    let a := (h1 ^^^ len) + (h2 ^^^ len)
    let b := (h2 ^^^ len) + a
    let p := fMix64 a + fMix64 b
    finalMix (h1, h2) len = (p, fMix64 b + p)

/-- 42_finalization.md R177. -/
def Obligations.PackByteOrder : Prop :=
  (∀ h1 h2 : Word,
    (∀ j, j < 8 →
      regByte (pack (h1, h2)) j = h1.extractLsb' (56 - 8 * j) 8 ∧
      regByte (pack (h1, h2)) (8 + j) = h2.extractLsb' (56 - 8 * j) 8) ∧
    le64 (regByte (pack (h1, h2))) 0 = bswap64 h1 ∧
    le64 (regByte (pack (h1, h2))) 8 = bswap64 h2) ∧
  pack (0xcbd8a7b341bd9b02, 0x5b1e906a48ae1d19) =
    #v[0xcb, 0xd8, 0xa7, 0xb3, 0x41, 0xbd, 0x9b, 0x02, 0x5b, 0x1e, 0x90, 0x6a, 0x48, 0xae, 0x1d, 0x19]

/-- 00_scope.md R10: the block loop, the tail, the finalization and the packing, written as the rule's own loop. -/
def Obligations.HashFunctionIsTheLoopOfTheRule : Prop :=
  ∀ (s : Word) (M : List Byte),
    let n := M.length
    let h := (List.range (n / 16)).foldl
      (fun h b => blockMix h (le64 (arrayOf M) (16 * b)) (le64 (arrayOf M) (16 * b + 8))) (s, s)
    mmh3 s M = finalMix (tailAbsorb h (fun i => arrayOf M (16 * (n / 16) + i)) (n % 16)) (BitVec.ofNat 64 n) ∧
    digestOf s M = pack (mmh3 s M)

/-- 42_finalization.md R178. -/
def Obligations.EmptyMessageDigest : Prop :=
  (∀ s : Word, mmh3 s [] = finalMix (s, s) 0) ∧ digestOf 0 [] = Vector.replicate 16 0

/-! ### The commands -/

/-- 40_block_mixer.md R128: INIT completes in every state and phase, and a second INIT changes nothing. -/
def Obligations.InitResult : Prop :=
  (∀ s : State,
    exec .init s = .next { s with
      h1 := s.seed, h2 := s.seed, mlen := 0, phase := .absorb, err := .none, pend := ⟨false, s.pend.word⟩ }) ∧
  (∀ s t : State, exec .init s = .next t → exec .init t = .next t) ∧
  encode .init = 0x0000000000000001 ∧ decode 0x0000000000000001 = .command .init ∧
  ∀ w : Word, w.extractLsb' 0 4 = 1 → w ≠ 1 → ∃ why, decode w = .illegal why

/-- 40_block_mixer.md R129: BLOCK in ABSORB, and in the other phases. -/
def Obligations.BlockResult : Prop :=
  ∀ s : State,
    (s.phase = .absorb →
      exec .block s = .next { s with
        h1 := (blockMix (s.h1, s.h2) (le64 (regByte s.blk) 0) (le64 (regByte s.blk) 8)).1
        h2 := (blockMix (s.h1, s.h2) (le64 (regByte s.blk) 0) (le64 (regByte s.blk) 8)).2
        mlen := s.mlen + 16, err := .none, pend := ⟨false, s.pend.word⟩ }) ∧
    (s.phase ≠ .absorb →
      exec .block s = .next { s with err := .phaseError, pend := ⟨false, s.pend.word⟩ })

/-- 41_tail_absorber.md R156: TAIL n, for every length the encoding admits, in ABSORB and in the other phases. -/
def Obligations.TailResult : Prop :=
  ∀ (s : State) (n : Nat), n ≤ 15 →
    (s.phase = .absorb →
      exec (.tail n) s = .next { s with
        h1 := (tailAbsorb (s.h1, s.h2) (regByte s.blk) n).1
        h2 := (tailAbsorb (s.h1, s.h2) (regByte s.blk) n).2
        mlen := s.mlen + BitVec.ofNat 64 n, phase := .tailed, err := .none, pend := ⟨false, s.pend.word⟩ }) ∧
    (s.phase ≠ .absorb →
      exec (.tail n) s = .next { s with err := .phaseError, pend := ⟨false, s.pend.word⟩ })

/-- 42_finalization.md R179: FINAL in ABSORB and TAILED, and in the other phases. -/
def Obligations.FinalResult : Prop :=
  ∀ s : State,
    (s.phase = .absorb ∨ s.phase = .tailed →
      exec .final s = .next { s with
        h1 := (finalMix (s.h1, s.h2) s.mlen).1
        h2 := (finalMix (s.h1, s.h2) s.mlen).2
        digest := pack (finalMix (s.h1, s.h2) s.mlen)
        phase := .done, err := .none, pend := ⟨false, s.pend.word⟩ }) ∧
    (s.phase = .idle ∨ s.phase = .done →
      exec .final s = .next { s with err := .phaseError, pend := ⟨false, s.pend.word⟩ })

/-- 43_oneshot_hash.md R200, R204, R205: HASH of a window that passes the checks, in every phase. -/
def Obligations.HashResult : Prop :=
  ∀ s : State, s.bufv = true → 0 ≤ s.off.toInt → 0 ≤ s.length.toInt →
    s.off.toInt + s.length.toInt ≤ s.buflen.toNat → s.off.toInt + s.length.toInt ≤ s.cfg.ibufBytes →
    let M := (List.range s.length.toNat).map fun k => s.ibufByte (s.off.toNat + k)
    exec .hash s = .next { s with
      h1 := (mmh3 s.seed M).1, h2 := (mmh3 s.seed M).2, mlen := s.length, digest := pack (mmh3 s.seed M)
      phase := .done, err := .none, pend := ⟨false, s.pend.word⟩ }

/-- 43_oneshot_hash.md R201, R202, R208: which windows HASH rejects, with which code, and that it accepts every other
one, the empty window at the buffer's end (R207) among them. -/
def Obligations.HashArgumentChecks : Prop :=
  ∀ s : State,
    (s.bufv = false → exec .hash s = .next { s with err := .nullInput, pend := ⟨false, s.pend.word⟩ }) ∧
    (s.bufv = true →
      (s.off.toInt < 0 ∨ s.length.toInt < 0 ∨ (s.buflen.toNat : Int) < s.off.toInt + s.length.toInt ∨
        (s.cfg.ibufBytes : Int) < s.off.toInt + s.length.toInt) →
      exec .hash s = .next { s with err := .invalidArgument, pend := ⟨false, s.pend.word⟩ }) ∧
    (s.bufv = true → 0 ≤ s.off.toInt → 0 ≤ s.length.toInt → s.off.toInt + s.length.toInt ≤ s.buflen.toNat →
      s.off.toInt + s.length.toInt ≤ s.cfg.ibufBytes → ∃ t, exec .hash s = .next t ∧ t.err = .none) ∧
    (s.bufv = true → s.length = 0 → s.off.toNat ≤ min s.buflen.toNat s.cfg.ibufBytes → s.cfg.WellFormed →
      ∃ t, exec .hash s = .next t ∧ t.err = .none ∧ t.mlen = 0 ∧ t.digest = digestOf s.seed []) ∧
    (s.bufv = true → s.off = 0x7FFFFFFFFFFFFFFF → s.length = 0x7FFFFFFFFFFFFFFF → s.cfg.WellFormed →
      exec .hash s = .next { s with err := .invalidArgument, pend := ⟨false, s.pend.word⟩ }) ∧
    (s.bufv = true → s.off = 0xFFFFFFFFFFFFFFFF →
      exec .hash s = .next { s with err := .invalidArgument, pend := ⟨false, s.pend.word⟩ })

/-- 60_exceptions.md R225: the phase table, command by command and for an illegal word. The illegal word's completion is
stated of `step` with an empty agenda: the agenda is log entry 1 (DESIGN CHOICE), and that an empty one lets the pending
command complete is log entry 2 (DEDUCED). -/
def Obligations.PhaseLegalityTable : Prop :=
  ∀ s : State,
    (∃ t, exec .init s = .next t ∧ t.err = .none ∧ t.phase = .absorb) ∧
    (∃ t, exec .block s = .next t ∧
      if s.phase = .absorb then t.err = .none ∧ t.phase = .absorb else t.err = .phaseError ∧ t.phase = s.phase) ∧
    (∀ n, ∃ t, exec (.tail n) s = .next t ∧
      if s.phase = .absorb then t.err = .none ∧ t.phase = .tailed else t.err = .phaseError ∧ t.phase = s.phase) ∧
    (∃ t, exec .final s = .next t ∧
      if s.phase = .absorb ∨ s.phase = .tailed then t.err = .none ∧ t.phase = .done
      else t.err = .phaseError ∧ t.phase = s.phase) ∧
    (∃ t, exec .hash s = .next t ∧
      ((t.err = .none ∧ t.phase = .done) ∨
        ((t.err = .nullInput ∨ t.err = .invalidArgument) ∧ t.phase = s.phase))) ∧
    (∀ why, s.pend.valid = true → decode s.pend.word = .illegal why → s.agenda = [] →
      ∃ t, step s = .next t ∧ t.err = .illegalCommand ∧ t.phase = s.phase)

/-- 60_exceptions.md R224: a failing command changes ERR and PEND.valid and nothing else, the HOST reads its code in
STATUS, and the block is ready for the next command at once. -/
def Obligations.FailingCommandWritesOnlyErr : Prop :=
  ∀ s t : State, completionStep s = .next t → t.err ≠ .none →
    t = { s with err := t.err, pend := ⟨false, s.pend.word⟩ } ∧
    (∃ v, busTxn (.read 0x08 .b8) t = (t, .data v) ∧ v.extractLsb' 4 4 = t.err.code ∧ v.getLsbD 0 = false) ∧
    ∀ w, busTxn (.write 0x00 .b8 w) t = ({ t with pend := ⟨true, w⟩ }, .ok)

/-- 60_exceptions.md R220 and R226: each code has its cause and no other, in the order of priority. -/
def Obligations.EachErrorCodeHasItsCause : Prop :=
  (∀ s t : State, completionStep s = .next t →
    (t.err = .illegalCommand ↔ ∃ why, decode s.pend.word = .illegal why) ∧
    (t.err = .phaseError ↔
      ((decode s.pend.word = .command .block ∨ ∃ n, decode s.pend.word = .command (.tail n)) ∧ s.phase ≠ .absorb) ∨
      (decode s.pend.word = .command .final ∧ (s.phase = .idle ∨ s.phase = .done))) ∧
    (t.err = .nullInput ↔ decode s.pend.word = .command .hash ∧ s.bufv = false) ∧
    (t.err = .invalidArgument ↔ decode s.pend.word = .command .hash ∧ s.bufv = true ∧
      (s.off.toInt < 0 ∨ s.length.toInt < 0 ∨ (s.buflen.toNat : Int) < s.off.toInt + s.length.toInt ∨
        (s.cfg.ibufBytes : Int) < s.off.toInt + s.length.toInt))) ∧
  ErrCode.code .none = 0 ∧ ErrCode.code .nullInput = 1 ∧ ErrCode.code .invalidArgument = 2 ∧
  ErrCode.code .illegalCommand = 3 ∧ ErrCode.code .phaseError = 4 ∧ ∀ e : ErrCode, e.code.toNat ≤ 4

/-- 10_state.md R44 and 20_memory.md R66, the frame of every command: no command writes SEED, CTRL, OFF, LENGTH, BUFLEN,
BLK, IBUF or OVR; only FINAL and HASH write DIGEST; FINAL leaves MLEN and BLOCK the phase. Every command clears
PEND.valid and keeps PEND.word. -/
def Obligations.CommandFrame : Prop :=
  ∀ (i : Instr) (s t : State), exec i s = .next t →
    t.seed = s.seed ∧ t.bufv = s.bufv ∧ t.off = s.off ∧ t.length = s.length ∧ t.buflen = s.buflen ∧
    t.blk = s.blk ∧ t.ibuf = s.ibuf ∧ (∀ j, t.ibufByte j = s.ibufByte j) ∧ t.ovr = s.ovr ∧
    t.pend = ⟨false, s.pend.word⟩ ∧ t.cfg = s.cfg ∧ t.epoch = s.epoch ∧ t.agenda = s.agenda ∧
    t.responses = s.responses ∧
    (i ≠ .final → i ≠ .hash → t.digest = s.digest) ∧
    (i = .final → t.mlen = s.mlen) ∧
    (i = .block → t.phase = s.phase)

/-- 41_tail_absorber.md R155: TAIL n reads `BLK[0..n-1]` only, so other bytes of BLK change nothing but BLK. -/
def Obligations.TailIgnoresBytesBeyondItsLength : Prop :=
  ∀ (s t : State) (B : Vector Byte 16) (n : Nat), n ≤ 15 → (∀ j, j < n → regByte B j = regByte s.blk j) →
    exec (.tail n) s = .next t → exec (.tail n) { s with blk := B } = .next { t with blk := B }

/-- 43_oneshot_hash.md R209: two HASH commands with the same seed over windows with the same bytes, wherever the windows
lie and whatever else the two states hold, leave the same results. -/
def Obligations.HashDependsOnSeedAndWindowOnly : Prop :=
  ∀ s t : State, s.bufv = true → t.bufv = true → s.WindowOk → t.WindowOk → s.seed = t.seed → s.length = t.length →
    (∀ k, k < s.length.toNat → s.ibufByte (s.off.toNat + k) = t.ibufByte (t.off.toNat + k)) →
    ∃ u v, exec .hash s = .next u ∧ exec .hash t = .next v ∧
      u.h1 = v.h1 ∧ u.h2 = v.h2 ∧ u.mlen = v.mlen ∧ u.digest = v.digest ∧ u.phase = v.phase ∧ u.err = v.err

/-- 43_oneshot_hash.md R206: INIT, BLOCK for each block, TAIL and FINAL, each after the last completed with ERR = 0, end
as one HASH over a window that holds the message; TAIL may be left out where there is no tail. -/
def Obligations.StreamedCommandsEqualHash : Prop :=
  ∀ (s w : State) (pad : Nat → Byte), w.bufv = true → w.WindowOk → w.seed = s.seed →
    let M := fun k => w.ibufByte (w.off.toNat + k)
    let n := w.length.toNat
    ∃ t v, streamMessage s M n pad = .next t ∧ exec .hash w = .next v ∧ t.err = .none ∧ v.err = .none ∧
      t.h1 = v.h1 ∧ t.h2 = v.h2 ∧ t.digest = v.digest ∧ t.phase = v.phase ∧ t.mlen = v.mlen ∧
      (n % 16 = 0 →
        ∃ x, streamWithoutTail s M n = .next x ∧ x.err = .none ∧
          x.h1 = v.h1 ∧ x.h2 = v.h2 ∧ x.digest = v.digest ∧ x.phase = v.phase ∧ x.mlen = v.mlen)

/-- Every command of every state completes, and every state steps: no fault (20_memory.md R67,
93_implementation_defined.md I4) and no refusal is reached. The clause about `step` counts two kinds of step by the
model's own reading: a transaction answered BUSERR is a next state by log entry 6 (DEDUCED; 93_implementation_defined.md
I3 calls it a fault of the host program), and so is a turn with nothing pending, by log entry 2 (DEDUCED). -/
def Obligations.EveryStepProceeds : Prop :=
  (∀ (i : Instr) (s : State), ∃ t, exec i s = .next t) ∧ ∀ s : State, ∃ t, step s = .next t

/-! ### The host bus -/

/-- 20_memory.md R68, with 00_scope.md R3's constraint on IBUF_BYTES. -/
def Obligations.AccessTable : Prop :=
  ∀ (s : State) (a : Nat) (n : Width) (v : Word), s.cfg.WellFormed →
    (LegalRead s.cfg a n.bytes → ∃ d, busTxn (.read a n) s = (s, .data d)) ∧
    (¬ LegalRead s.cfg a n.bytes → busTxn (.read a n) s = (s, .busErr)) ∧
    (LegalWrite s.cfg a n.bytes → (busTxn (.write a n v) s).2 = .ok) ∧
    (¬ LegalWrite s.cfg a n.bytes → busTxn (.write a n v) s = (s, .busErr)) ∧
    busTxn (.read 0x00 .b8) s = (s, .data 0) ∧
    busTxn (.write 0x08 .b8 v) s = ({ s with ovr := s.ovr && !v.getLsbD 1 }, .ok) ∧
    (LegalRead s.cfg a n.bytes →
      a + n.bytes ≤ 0x58 ∨ (0x60 ≤ a ∧ a + n.bytes ≤ 0x70) ∨ (0x70 ≤ a ∧ a + n.bytes ≤ 0x80) ∨
        (0x1000 ≤ a ∧ a + n.bytes ≤ 0x1000 + s.cfg.ibufBytes))

/-- 00_scope.md R3, 20_memory.md R60: every access the block answers with OK lies in its window on the host bus. -/
def Obligations.AnsweredAccessesLieInTheWindow : Prop :=
  ∀ (s : State) (x : Txn) (a : Nat) (n : Width), s.cfg.WellFormed → (busTxn x s).2 ≠ .busErr →
    (x = .read a n ∨ ∃ v, x = .write a n v) →
    s.cfg.base + a + n.bytes ≤ s.cfg.base + 0x1000 + s.cfg.ibufBytes ∧ s.cfg.base + a + n.bytes ≤ 2 ^ s.cfg.addrW

/-- 20_memory.md R69: what a write does while busy, and while not. -/
def Obligations.WritesTakeEffectUnlessBusy : Prop :=
  ∀ (s : State) (a : Nat) (n : Width) (v : Word), s.cfg.WellFormed →
    (s.pend.valid = true → LegalWrite s.cfg a n.bytes → a ≠ 0x08 →
      busTxn (.write a n v) s = ({ s with ovr := true }, .ok)) ∧
    busTxn (.write 0x08 .b8 v) s = ({ s with ovr := s.ovr && !v.getLsbD 1 }, .ok) ∧
    (¬ LegalWrite s.cfg a n.bytes → busTxn (.write a n v) s = (s, .busErr)) ∧
    (s.pend.valid = false →
      busTxn (.write 0x00 .b8 v) s = ({ s with pend := ⟨true, v⟩ }, .ok) ∧
      busTxn (.write 0x10 .b8 v) s = ({ s with bufv := v.getLsbD 0 }, .ok) ∧
      busTxn (.write 0x20 .b8 v) s = ({ s with seed := v }, .ok) ∧
      busTxn (.write 0x28 .b8 v) s = ({ s with off := v }, .ok) ∧
      busTxn (.write 0x30 .b8 v) s = ({ s with length := v }, .ok) ∧
      busTxn (.write 0x38 .b8 v) s = ({ s with buflen := v }, .ok) ∧
      (LegalWrite s.cfg a n.bytes → 0x60 ≤ a → a ≤ 0x6F →
        ∃ B, busTxn (.write a n v) s = ({ s with blk := B }, .ok) ∧
          ∀ j, j < 16 → regByte B j =
            if a ≤ 0x60 + j ∧ 0x60 + j < a + n.bytes then byteAt v (0x60 + j - a) else regByte s.blk j) ∧
      (LegalWrite s.cfg a n.bytes → 0x1000 ≤ a →
        ∃ m, busTxn (.write a n v) s = ({ s with ibuf := m }, .ok) ∧
          ∀ j, State.ibufByte { s with ibuf := m } j =
            if a ≤ 0x1000 + j ∧ 0x1000 + j < a + n.bytes then byteAt v (0x1000 + j - a) else s.ibufByte j))

/-- 20_memory.md R70: a read changes nothing, and no transaction changes a result register, so a read while busy gives
the value from before the pending command. -/
def Obligations.ReadsHaveNoSideEffect : Prop :=
  ∀ (s : State) (a : Nat) (n : Width) (x : Txn),
    (busTxn (.read a n) s).1 = s ∧
    (busTxn x s).1.h1 = s.h1 ∧ (busTxn x s).1.h2 = s.h2 ∧ (busTxn x s).1.mlen = s.mlen ∧
    (busTxn x s).1.digest = s.digest ∧ (busTxn x s).1.phase = s.phase ∧ (busTxn x s).1.err = s.err

/-- 10_state.md R30 to R39, R41 and 20_memory.md R62: the value a read of CTRL, HASHSIZE, SEED, OFF, LENGTH, BUFLEN, H1,
H2, MLEN, BLK and DIGEST returns. The read of CMD stands in AccessTable, that of STATUS in StatusFields, that of IBUF in
IbufWriteThenRead. Read data is carried zero-extended to 64 bits (log entry 8, DESIGN CHOICE). -/
def Obligations.ReadValues : Prop :=
  ∀ (s : State) (j : Nat) (n : Width),
    busTxn (.read 0x10 .b8) s = (s, .data (if s.bufv = true then 1 else 0)) ∧
    busTxn (.read 0x18 .b8) s = (s, .data 0x0000000000000080) ∧
    busTxn (.read 0x20 .b8) s = (s, .data s.seed) ∧
    busTxn (.read 0x28 .b8) s = (s, .data s.off) ∧
    busTxn (.read 0x30 .b8) s = (s, .data s.length) ∧
    busTxn (.read 0x38 .b8) s = (s, .data s.buflen) ∧
    busTxn (.read 0x40 .b8) s = (s, .data s.h1) ∧
    busTxn (.read 0x48 .b8) s = (s, .data s.h2) ∧
    busTxn (.read 0x50 .b8) s = (s, .data s.mlen) ∧
    (j < 16 → j % n.bytes = 0 →
      (∃ v, busTxn (.read (0x60 + j) n) s = (s, .data v) ∧
        v.toNat = ∑ i ∈ Finset.range n.bytes, (regByte s.blk (j + i)).toNat * 2 ^ (8 * i)) ∧
      ∃ v, busTxn (.read (0x70 + j) n) s = (s, .data v) ∧
        v.toNat = ∑ i ∈ Finset.range n.bytes, (regByte s.digest (j + i)).toNat * 2 ^ (8 * i))

/-- 10_state.md R25 and R29: the fields of the word a read of STATUS returns; with R27 and R28, PHASE and ERR. -/
def Obligations.StatusFields : Prop :=
  (∀ s : State, ∃ v, busTxn (.read 0x08 .b8) s = (s, .data v) ∧
    v.getLsbD 0 = s.pend.valid ∧ v.getLsbD 1 = s.ovr ∧
    v.extractLsb' 2 2 = (match s.phase with | .idle => 0 | .absorb => 1 | .tailed => 2 | .done => 3) ∧
    v.extractLsb' 4 4 = s.err.code ∧ (v.extractLsb' 4 4).toNat ≤ 4 ∧ v.extractLsb' 8 56 = 0) ∧
  (∀ (s : State) (v : Word), (busTxn (.write 0x08 .b8 v) s).2 = .ok ∧
    ((busTxn (.write 0x08 .b8 v) s).1 = s ∨ (busTxn (.write 0x08 .b8 v) s).1 = { s with ovr := false })) ∧
  busTxn (.read 0x08 .b8) State.reset = (State.reset, .data 0)

/-- 10_state.md R26: OVR is set by a dropped write and cleared by a write to STATUS with bit 1 set, even while busy;
otherwise only RESET clears it, and no command does. The clause that names what a step takes off the agenda is in the
terms of log entry 1 (DESIGN CHOICE). -/
def Obligations.OverrunFlagLifeCycle : Prop :=
  (∀ (s : State) (a : Nat) (n : Width) (v : Word), s.cfg.WellFormed → s.pend.valid = true →
    LegalWrite s.cfg a n.bytes → a ≠ 0x08 → (busTxn (.write a n v) s).1.ovr = true) ∧
  (∀ (s : State) (v : Word),
    (busTxn (.write 0x08 .b8 v) s).1.ovr = if v.getLsbD 1 = true then false else s.ovr) ∧
  (∀ (i : Instr) (s t : State), exec i s = .next t → t.ovr = s.ovr) ∧
  (∀ s t : State, step s = .next t → s.ovr = true → t.ovr = false →
    (∃ l, s.agenda = .reset :: l) ∨
      ∃ v l, s.agenda = .host (.write 0x08 .b8 v) :: l ∧ v.getLsbD 1 = true) ∧
  State.reset.ovr = false

/-- 20_memory.md R64: a write to IBUF, byte by byte, the read of what was written, and every other byte. -/
def Obligations.IbufWriteThenRead : Prop :=
  ∀ (s : State) (j : Nat) (n : Width) (v : Word), s.pend.valid = false → j % n.bytes = 0 →
    j + n.bytes ≤ s.cfg.ibufBytes →
    ∃ t, busTxn (.write (0x1000 + j) n v) s = (t, .ok) ∧
      (∀ i, i < n.bytes → t.ibufByte (j + i) = byteAt v i) ∧
      (∀ k, k < j ∨ j + n.bytes ≤ k → t.ibufByte k = s.ibufByte k) ∧
      (∃ d, busTxn (.read (0x1000 + j) n) t = (t, .data d) ∧ ∀ i, i < n.bytes → byteAt d i = byteAt v i) ∧
      ∃ d, busTxn (.read (0x1000 + j) n) s = (s, .data d) ∧
        d.toNat = ∑ i ∈ Finset.range n.bytes, (s.ibufByte (j + i)).toNat * 2 ^ (8 * i)

/-- 20_memory.md R73. -/
def Obligations.BlkWritesAreBlockHalves : Prop :=
  ∀ (s : State) (v : Word), s.pend.valid = false →
    (∃ t, busTxn (.write 0x60 .b8 v) s = (t, .ok) ∧ (∀ j, j < 8 → regByte t.blk j = byteAt v j) ∧
      le64 (regByte t.blk) 0 = v ∧ le64 (regByte t.blk) 8 = le64 (regByte s.blk) 8) ∧
    (∃ t, busTxn (.write 0x68 .b8 v) s = (t, .ok) ∧ (∀ j, j < 8 → regByte t.blk (8 + j) = byteAt v j) ∧
      le64 (regByte t.blk) 8 = v ∧ le64 (regByte t.blk) 0 = le64 (regByte s.blk) 0) ∧
    ∃ t u w, busTxn (.write 0x63 .b1 v) s = (t, .ok) ∧ busTxn (.read 0x60 .b8) s = (s, .data u) ∧
      busTxn (.read 0x60 .b8) t = (t, .data w) ∧
      ∀ i, i < 64 → w.getLsbD i = if 24 ≤ i ∧ i ≤ 31 then v.getLsbD (i - 24) else u.getLsbD i

/-- 20_memory.md R72: the HOST's 64-bit view of DIGEST, and after a successful FINAL or HASH. -/
def Obligations.DigestView : Prop :=
  (∀ s : State, busTxn (.read 0x70 .b8) s = (s, .data (le64 (regByte s.digest) 0)) ∧
    busTxn (.read 0x78 .b8) s = (s, .data (le64 (regByte s.digest) 8))) ∧
  (∀ (s t : State) (i : Instr), i = .final ∨ i = .hash → exec i s = .next t → t.err = .none →
    le64 (regByte t.digest) 0 = bswap64 t.h1 ∧ le64 (regByte t.digest) 8 = bswap64 t.h2) ∧
  (∀ s : State, s.h1 = 0xcbd8a7b341bd9b02 → s.digest = pack (s.h1, s.h2) →
    busTxn (.read 0x70 .b8) s = (s, .data 0x029bbd41b3a7d8cb)) ∧
  mmh3 0 [0x68, 0x65, 0x6c, 0x6c, 0x6f] = (0xcbd8a7b341bd9b02, 0x5b1e906a48ae1d19)

/-! ### The whole machine -/

/-- 10_state.md R43, 20_memory.md R69: whatever transactions the HOST performs while a command is pending, the command
and its operands stay, and its completion leaves the results it would have left at once. -/
def Obligations.PendingCommandKeepsItsOperands : Prop :=
  ∀ (s : State) (xs : List Txn), s.pend.valid = true →
    let u := xs.foldl (fun s x => hostStep x s) s
    u.pend = s.pend ∧ u.seed = s.seed ∧ u.bufv = s.bufv ∧ u.off = s.off ∧ u.length = s.length ∧
    u.buflen = s.buflen ∧ u.blk = s.blk ∧ u.ibuf = s.ibuf ∧
    ∀ t, completionStep s = .next t →
      completionStep u = .next { t with ovr := u.ovr, responses := u.responses }

/-- The model's form of weak fairness (70_reset_and_hazards.md R262, which gives no number of steps): a pending command
completes once the HOST transactions still to come have taken place. That they are a list is log entry 1 (DESIGN CHOICE),
that the completion follows the last of them log entry 2 (DEDUCED), that each leaves one response log entry 7 (DESIGN
CHOICE). -/
def Obligations.PendingCommandCompletes : Prop :=
  ∀ (s : State) (xs : List Txn), s.pend.valid = true → s.agenda = xs.map Event.host →
    ∃ t, Sys2Proof.core.run (xs.length + 1) s = .next t ∧ t.pend = ⟨false, s.pend.word⟩ ∧ t.agenda = [] ∧
      t.responses.length = s.responses.length + xs.length

/-- 10_state.md R27, R28, R40 and 20_memory.md R70: PHASE, ERR, H1, H2, MLEN and DIGEST change only in the completion
step of a pending command, or in RESET. Where on the agenda a completion stands is log entries 1 and 2. -/
def Obligations.ResultsChangeOnlyAtCompletionOrReset : Prop :=
  ∀ s t : State, step s = .next t →
    (t.phase ≠ s.phase ∨ t.err ≠ s.err ∨ t.h1 ≠ s.h1 ∨ t.h2 ≠ s.h2 ∨ t.mlen ≠ s.mlen ∨ t.digest ≠ s.digest) →
    (∃ l, s.agenda = .reset :: l) ∨
    (s.pend.valid = true ∧ t.pend.valid = false ∧ (s.agenda = [] ∨ ∃ l, s.agenda = .core :: l))

/-- 42_finalization.md R180, 10_state.md R41: a step that changes DIGEST is RESET or the successful completion of FINAL
or HASH, and it writes the packed accumulators whole. -/
def Obligations.OnlyFinalAndHashWriteDigest : Prop :=
  ∀ s t : State, step s = .next t → t.digest ≠ s.digest →
    ((∃ l, s.agenda = .reset :: l) ∧ t.digest = Vector.replicate 16 0) ∨
    (s.pend.valid = true ∧ (decode s.pend.word = .command .final ∨ decode s.pend.word = .command .hash) ∧
      t.err = .none ∧ t.phase = .done ∧ t.digest = pack (t.h1, t.h2))

/-- 70_reset_and_hazards.md R250: RESET in any state, a command pending or not, and its agreement with power-on. Three
things in it are the model's choice and no value of R250: that unwritten IBUF bytes are drawn anew is log entry 3's form
of UNSPECIFIED; that the last equation makes PEND.word 0 is log entry 4 (DESIGN CHOICE, unsafe; the spec leaves the word
unspecified); and that the parameters, the agenda and the responses are kept is log entry 13 (DESIGN CHOICE). -/
def Obligations.ResetRestoresEveryRegister : Prop :=
  (∀ (s : State) (l : List Event), s.agenda = .reset :: l →
    ∃ t, step s = .next t ∧ t.pend.valid = false ∧ t.ovr = false ∧ t.phase = .idle ∧ t.err = .none ∧
      t.bufv = false ∧ t.seed = 0 ∧ t.off = 0 ∧ t.length = 0 ∧ t.buflen = 0 ∧ t.h1 = 0 ∧ t.h2 = 0 ∧ t.mlen = 0 ∧
      (∀ j, j < 16 → regByte t.blk j = 0) ∧ (∀ j, j < 16 → regByte t.digest j = 0) ∧
      (∀ j, t.ibufByte j = Config.ibufDraw (s.epoch + 1) j) ∧
      busTxn (.read 0x08 .b8) t = (t, .data 0) ∧ busTxn (.read 0x10 .b8) t = (t, .data 0) ∧
      busTxn (.read 0x18 .b8) t = (t, .data 128) ∧
      t = { State.reset with cfg := s.cfg, epoch := s.epoch + 1, agenda := l, responses := s.responses }) ∧
  ∀ j, State.reset.ibufByte j = Config.ibufDraw 0 j

/-- 70_reset_and_hazards.md R252. -/
def Obligations.ResetSufficesForBothForms : Prop :=
  ∀ s : State,
    (∃ t u, exec .init s.resetStep = .next t ∧ exec .final t = .next u ∧ u.err = .none ∧
      u.digest = Vector.replicate 16 0) ∧
    ∃ t, exec .hash s.resetStep = .next t ∧ t.err = .nullInput

/-- Log entry 4: PEND.word, which the model names 0 at reset, is never read while PEND.valid = 0 (10_state.md R43,
93_implementation_defined.md I5): with any other word there, every step does the same. -/
def Obligations.PendWordIsNotReadWhileIdle : Prop :=
  ∀ (s : State) (w : Word), s.pend.valid = false →
    ∃ t u, step s = .next t ∧ step { s with pend := ⟨false, w⟩ } = .next u ∧
      u = { t with pend := u.pend } ∧ u.pend.valid = t.pend.valid ∧ (t.pend.valid = true → u.pend = t.pend)

/-- The invariant of Safety.lean is kept by every step, from every state that meets it. -/
def Obligations.EveryStepKeepsTheInvariant : Prop :=
  ∀ s t : State, s.Inv → step s = .next t → t.Inv

/-- The state after power-on meets the invariant. The parameters in it are log entry 5's choice. -/
def Obligations.ResetStateMeetsTheInvariant : Prop :=
  State.reset.Inv
end

