-- ==== Sys2Proof/Laws/State.lean ====
section
/-! SUPPORT. One lemma per field of State and update of Machine/Ops.lean, so that no proof unfolds a record update.

Each is true by `rfl`. The proofs say `by rfl`, so that `simp` rewrites with them: a bare `rfl` would leave the kernel to
compare the states by definition, and it then computes the datapath values they hold. -/

namespace Sys2Proof.Machine

variable (s : State)

@[simp] theorem State.setLanes_ovr (h : Word × Word) : (s.setLanes h).ovr = s.ovr := by rfl
@[simp] theorem State.setLanes_phase (h : Word × Word) : (s.setLanes h).phase = s.phase := by rfl
@[simp] theorem State.setLanes_err (h : Word × Word) : (s.setLanes h).err = s.err := by rfl
@[simp] theorem State.setLanes_bufv (h : Word × Word) : (s.setLanes h).bufv = s.bufv := by rfl
@[simp] theorem State.setLanes_seed (h : Word × Word) : (s.setLanes h).seed = s.seed := by rfl
@[simp] theorem State.setLanes_off (h : Word × Word) : (s.setLanes h).off = s.off := by rfl
@[simp] theorem State.setLanes_length (h : Word × Word) : (s.setLanes h).length = s.length := by rfl
@[simp] theorem State.setLanes_buflen (h : Word × Word) : (s.setLanes h).buflen = s.buflen := by rfl
@[simp] theorem State.setLanes_h1 (h : Word × Word) : (s.setLanes h).h1 = h.1 := by rfl
@[simp] theorem State.setLanes_h2 (h : Word × Word) : (s.setLanes h).h2 = h.2 := by rfl
@[simp] theorem State.setLanes_mlen (h : Word × Word) : (s.setLanes h).mlen = s.mlen := by rfl
@[simp] theorem State.setLanes_blk (h : Word × Word) : (s.setLanes h).blk = s.blk := by rfl
@[simp] theorem State.setLanes_digest (h : Word × Word) : (s.setLanes h).digest = s.digest := by rfl
@[simp] theorem State.setLanes_ibuf (h : Word × Word) : (s.setLanes h).ibuf = s.ibuf := by rfl
@[simp] theorem State.setLanes_pend (h : Word × Word) : (s.setLanes h).pend = s.pend := by rfl
@[simp] theorem State.setLanes_cfg (h : Word × Word) : (s.setLanes h).cfg = s.cfg := by rfl
@[simp] theorem State.setLanes_epoch (h : Word × Word) : (s.setLanes h).epoch = s.epoch := by rfl
@[simp] theorem State.setLanes_agenda (h : Word × Word) : (s.setLanes h).agenda = s.agenda := by rfl
@[simp] theorem State.setLanes_responses (h : Word × Word) : (s.setLanes h).responses = s.responses := by rfl

@[simp] theorem State.setMlen_ovr (v : Word) : (s.setMlen v).ovr = s.ovr := by rfl
@[simp] theorem State.setMlen_phase (v : Word) : (s.setMlen v).phase = s.phase := by rfl
@[simp] theorem State.setMlen_err (v : Word) : (s.setMlen v).err = s.err := by rfl
@[simp] theorem State.setMlen_bufv (v : Word) : (s.setMlen v).bufv = s.bufv := by rfl
@[simp] theorem State.setMlen_seed (v : Word) : (s.setMlen v).seed = s.seed := by rfl
@[simp] theorem State.setMlen_off (v : Word) : (s.setMlen v).off = s.off := by rfl
@[simp] theorem State.setMlen_length (v : Word) : (s.setMlen v).length = s.length := by rfl
@[simp] theorem State.setMlen_buflen (v : Word) : (s.setMlen v).buflen = s.buflen := by rfl
@[simp] theorem State.setMlen_h1 (v : Word) : (s.setMlen v).h1 = s.h1 := by rfl
@[simp] theorem State.setMlen_h2 (v : Word) : (s.setMlen v).h2 = s.h2 := by rfl
@[simp] theorem State.setMlen_mlen (v : Word) : (s.setMlen v).mlen = v := by rfl
@[simp] theorem State.setMlen_blk (v : Word) : (s.setMlen v).blk = s.blk := by rfl
@[simp] theorem State.setMlen_digest (v : Word) : (s.setMlen v).digest = s.digest := by rfl
@[simp] theorem State.setMlen_ibuf (v : Word) : (s.setMlen v).ibuf = s.ibuf := by rfl
@[simp] theorem State.setMlen_pend (v : Word) : (s.setMlen v).pend = s.pend := by rfl
@[simp] theorem State.setMlen_cfg (v : Word) : (s.setMlen v).cfg = s.cfg := by rfl
@[simp] theorem State.setMlen_epoch (v : Word) : (s.setMlen v).epoch = s.epoch := by rfl
@[simp] theorem State.setMlen_agenda (v : Word) : (s.setMlen v).agenda = s.agenda := by rfl
@[simp] theorem State.setMlen_responses (v : Word) : (s.setMlen v).responses = s.responses := by rfl

@[simp] theorem State.setPhase_ovr (p : Phase) : (s.setPhase p).ovr = s.ovr := by rfl
@[simp] theorem State.setPhase_phase (p : Phase) : (s.setPhase p).phase = p := by rfl
@[simp] theorem State.setPhase_err (p : Phase) : (s.setPhase p).err = s.err := by rfl
@[simp] theorem State.setPhase_bufv (p : Phase) : (s.setPhase p).bufv = s.bufv := by rfl
@[simp] theorem State.setPhase_seed (p : Phase) : (s.setPhase p).seed = s.seed := by rfl
@[simp] theorem State.setPhase_off (p : Phase) : (s.setPhase p).off = s.off := by rfl
@[simp] theorem State.setPhase_length (p : Phase) : (s.setPhase p).length = s.length := by rfl
@[simp] theorem State.setPhase_buflen (p : Phase) : (s.setPhase p).buflen = s.buflen := by rfl
@[simp] theorem State.setPhase_h1 (p : Phase) : (s.setPhase p).h1 = s.h1 := by rfl
@[simp] theorem State.setPhase_h2 (p : Phase) : (s.setPhase p).h2 = s.h2 := by rfl
@[simp] theorem State.setPhase_mlen (p : Phase) : (s.setPhase p).mlen = s.mlen := by rfl
@[simp] theorem State.setPhase_blk (p : Phase) : (s.setPhase p).blk = s.blk := by rfl
@[simp] theorem State.setPhase_digest (p : Phase) : (s.setPhase p).digest = s.digest := by rfl
@[simp] theorem State.setPhase_ibuf (p : Phase) : (s.setPhase p).ibuf = s.ibuf := by rfl
@[simp] theorem State.setPhase_pend (p : Phase) : (s.setPhase p).pend = s.pend := by rfl
@[simp] theorem State.setPhase_cfg (p : Phase) : (s.setPhase p).cfg = s.cfg := by rfl
@[simp] theorem State.setPhase_epoch (p : Phase) : (s.setPhase p).epoch = s.epoch := by rfl
@[simp] theorem State.setPhase_agenda (p : Phase) : (s.setPhase p).agenda = s.agenda := by rfl
@[simp] theorem State.setPhase_responses (p : Phase) : (s.setPhase p).responses = s.responses := by rfl

@[simp] theorem State.setDigest_ovr (D : Vector Byte 16) : (s.setDigest D).ovr = s.ovr := by rfl
@[simp] theorem State.setDigest_phase (D : Vector Byte 16) : (s.setDigest D).phase = s.phase := by rfl
@[simp] theorem State.setDigest_err (D : Vector Byte 16) : (s.setDigest D).err = s.err := by rfl
@[simp] theorem State.setDigest_bufv (D : Vector Byte 16) : (s.setDigest D).bufv = s.bufv := by rfl
@[simp] theorem State.setDigest_seed (D : Vector Byte 16) : (s.setDigest D).seed = s.seed := by rfl
@[simp] theorem State.setDigest_off (D : Vector Byte 16) : (s.setDigest D).off = s.off := by rfl
@[simp] theorem State.setDigest_length (D : Vector Byte 16) : (s.setDigest D).length = s.length := by rfl
@[simp] theorem State.setDigest_buflen (D : Vector Byte 16) : (s.setDigest D).buflen = s.buflen := by rfl
@[simp] theorem State.setDigest_h1 (D : Vector Byte 16) : (s.setDigest D).h1 = s.h1 := by rfl
@[simp] theorem State.setDigest_h2 (D : Vector Byte 16) : (s.setDigest D).h2 = s.h2 := by rfl
@[simp] theorem State.setDigest_mlen (D : Vector Byte 16) : (s.setDigest D).mlen = s.mlen := by rfl
@[simp] theorem State.setDigest_blk (D : Vector Byte 16) : (s.setDigest D).blk = s.blk := by rfl
@[simp] theorem State.setDigest_digest (D : Vector Byte 16) : (s.setDigest D).digest = D := by rfl
@[simp] theorem State.setDigest_ibuf (D : Vector Byte 16) : (s.setDigest D).ibuf = s.ibuf := by rfl
@[simp] theorem State.setDigest_pend (D : Vector Byte 16) : (s.setDigest D).pend = s.pend := by rfl
@[simp] theorem State.setDigest_cfg (D : Vector Byte 16) : (s.setDigest D).cfg = s.cfg := by rfl
@[simp] theorem State.setDigest_epoch (D : Vector Byte 16) : (s.setDigest D).epoch = s.epoch := by rfl
@[simp] theorem State.setDigest_agenda (D : Vector Byte 16) : (s.setDigest D).agenda = s.agenda := by rfl
@[simp] theorem State.setDigest_responses (D : Vector Byte 16) : (s.setDigest D).responses = s.responses := by rfl

@[simp] theorem State.complete_ovr (e : ErrCode) : (s.complete e).ovr = s.ovr := by rfl
@[simp] theorem State.complete_phase (e : ErrCode) : (s.complete e).phase = s.phase := by rfl
@[simp] theorem State.complete_err (e : ErrCode) : (s.complete e).err = e := by rfl
@[simp] theorem State.complete_bufv (e : ErrCode) : (s.complete e).bufv = s.bufv := by rfl
@[simp] theorem State.complete_seed (e : ErrCode) : (s.complete e).seed = s.seed := by rfl
@[simp] theorem State.complete_off (e : ErrCode) : (s.complete e).off = s.off := by rfl
@[simp] theorem State.complete_length (e : ErrCode) : (s.complete e).length = s.length := by rfl
@[simp] theorem State.complete_buflen (e : ErrCode) : (s.complete e).buflen = s.buflen := by rfl
@[simp] theorem State.complete_h1 (e : ErrCode) : (s.complete e).h1 = s.h1 := by rfl
@[simp] theorem State.complete_h2 (e : ErrCode) : (s.complete e).h2 = s.h2 := by rfl
@[simp] theorem State.complete_mlen (e : ErrCode) : (s.complete e).mlen = s.mlen := by rfl
@[simp] theorem State.complete_blk (e : ErrCode) : (s.complete e).blk = s.blk := by rfl
@[simp] theorem State.complete_digest (e : ErrCode) : (s.complete e).digest = s.digest := by rfl
@[simp] theorem State.complete_ibuf (e : ErrCode) : (s.complete e).ibuf = s.ibuf := by rfl
@[simp] theorem State.complete_pend (e : ErrCode) : (s.complete e).pend = ⟨false, s.pend.word⟩ := by rfl
@[simp] theorem State.complete_cfg (e : ErrCode) : (s.complete e).cfg = s.cfg := by rfl
@[simp] theorem State.complete_epoch (e : ErrCode) : (s.complete e).epoch = s.epoch := by rfl
@[simp] theorem State.complete_agenda (e : ErrCode) : (s.complete e).agenda = s.agenda := by rfl
@[simp] theorem State.complete_responses (e : ErrCode) : (s.complete e).responses = s.responses := by rfl

@[simp] theorem State.setAgenda_ovr (l : List Event) : (s.setAgenda l).ovr = s.ovr := by rfl
@[simp] theorem State.setAgenda_phase (l : List Event) : (s.setAgenda l).phase = s.phase := by rfl
@[simp] theorem State.setAgenda_err (l : List Event) : (s.setAgenda l).err = s.err := by rfl
@[simp] theorem State.setAgenda_bufv (l : List Event) : (s.setAgenda l).bufv = s.bufv := by rfl
@[simp] theorem State.setAgenda_seed (l : List Event) : (s.setAgenda l).seed = s.seed := by rfl
@[simp] theorem State.setAgenda_off (l : List Event) : (s.setAgenda l).off = s.off := by rfl
@[simp] theorem State.setAgenda_length (l : List Event) : (s.setAgenda l).length = s.length := by rfl
@[simp] theorem State.setAgenda_buflen (l : List Event) : (s.setAgenda l).buflen = s.buflen := by rfl
@[simp] theorem State.setAgenda_h1 (l : List Event) : (s.setAgenda l).h1 = s.h1 := by rfl
@[simp] theorem State.setAgenda_h2 (l : List Event) : (s.setAgenda l).h2 = s.h2 := by rfl
@[simp] theorem State.setAgenda_mlen (l : List Event) : (s.setAgenda l).mlen = s.mlen := by rfl
@[simp] theorem State.setAgenda_blk (l : List Event) : (s.setAgenda l).blk = s.blk := by rfl
@[simp] theorem State.setAgenda_digest (l : List Event) : (s.setAgenda l).digest = s.digest := by rfl
@[simp] theorem State.setAgenda_ibuf (l : List Event) : (s.setAgenda l).ibuf = s.ibuf := by rfl
@[simp] theorem State.setAgenda_pend (l : List Event) : (s.setAgenda l).pend = s.pend := by rfl
@[simp] theorem State.setAgenda_cfg (l : List Event) : (s.setAgenda l).cfg = s.cfg := by rfl
@[simp] theorem State.setAgenda_epoch (l : List Event) : (s.setAgenda l).epoch = s.epoch := by rfl
@[simp] theorem State.setAgenda_agenda (l : List Event) : (s.setAgenda l).agenda = l := by rfl
@[simp] theorem State.setAgenda_responses (l : List Event) : (s.setAgenda l).responses = s.responses := by rfl

@[simp] theorem State.respond_ovr (r : Response) : (s.respond r).ovr = s.ovr := by rfl
@[simp] theorem State.respond_phase (r : Response) : (s.respond r).phase = s.phase := by rfl
@[simp] theorem State.respond_err (r : Response) : (s.respond r).err = s.err := by rfl
@[simp] theorem State.respond_bufv (r : Response) : (s.respond r).bufv = s.bufv := by rfl
@[simp] theorem State.respond_seed (r : Response) : (s.respond r).seed = s.seed := by rfl
@[simp] theorem State.respond_off (r : Response) : (s.respond r).off = s.off := by rfl
@[simp] theorem State.respond_length (r : Response) : (s.respond r).length = s.length := by rfl
@[simp] theorem State.respond_buflen (r : Response) : (s.respond r).buflen = s.buflen := by rfl
@[simp] theorem State.respond_h1 (r : Response) : (s.respond r).h1 = s.h1 := by rfl
@[simp] theorem State.respond_h2 (r : Response) : (s.respond r).h2 = s.h2 := by rfl
@[simp] theorem State.respond_mlen (r : Response) : (s.respond r).mlen = s.mlen := by rfl
@[simp] theorem State.respond_blk (r : Response) : (s.respond r).blk = s.blk := by rfl
@[simp] theorem State.respond_digest (r : Response) : (s.respond r).digest = s.digest := by rfl
@[simp] theorem State.respond_ibuf (r : Response) : (s.respond r).ibuf = s.ibuf := by rfl
@[simp] theorem State.respond_pend (r : Response) : (s.respond r).pend = s.pend := by rfl
@[simp] theorem State.respond_cfg (r : Response) : (s.respond r).cfg = s.cfg := by rfl
@[simp] theorem State.respond_epoch (r : Response) : (s.respond r).epoch = s.epoch := by rfl
@[simp] theorem State.respond_agenda (r : Response) : (s.respond r).agenda = s.agenda := by rfl
@[simp] theorem State.respond_responses (r : Response) : (s.respond r).responses = r :: s.responses := by rfl

@[simp] theorem State.overrun_ovr : s.overrun.ovr = true := by rfl
@[simp] theorem State.overrun_phase : s.overrun.phase = s.phase := by rfl
@[simp] theorem State.overrun_err : s.overrun.err = s.err := by rfl
@[simp] theorem State.overrun_bufv : s.overrun.bufv = s.bufv := by rfl
@[simp] theorem State.overrun_seed : s.overrun.seed = s.seed := by rfl
@[simp] theorem State.overrun_off : s.overrun.off = s.off := by rfl
@[simp] theorem State.overrun_length : s.overrun.length = s.length := by rfl
@[simp] theorem State.overrun_buflen : s.overrun.buflen = s.buflen := by rfl
@[simp] theorem State.overrun_h1 : s.overrun.h1 = s.h1 := by rfl
@[simp] theorem State.overrun_h2 : s.overrun.h2 = s.h2 := by rfl
@[simp] theorem State.overrun_mlen : s.overrun.mlen = s.mlen := by rfl
@[simp] theorem State.overrun_blk : s.overrun.blk = s.blk := by rfl
@[simp] theorem State.overrun_digest : s.overrun.digest = s.digest := by rfl
@[simp] theorem State.overrun_ibuf : s.overrun.ibuf = s.ibuf := by rfl
@[simp] theorem State.overrun_pend : s.overrun.pend = s.pend := by rfl
@[simp] theorem State.overrun_cfg : s.overrun.cfg = s.cfg := by rfl
@[simp] theorem State.overrun_epoch : s.overrun.epoch = s.epoch := by rfl
@[simp] theorem State.overrun_agenda : s.overrun.agenda = s.agenda := by rfl
@[simp] theorem State.overrun_responses : s.overrun.responses = s.responses := by rfl

@[simp] theorem State.resetStep_ovr : s.resetStep.ovr = State.reset.ovr := by rfl
@[simp] theorem State.resetStep_phase : s.resetStep.phase = State.reset.phase := by rfl
@[simp] theorem State.resetStep_err : s.resetStep.err = State.reset.err := by rfl
@[simp] theorem State.resetStep_bufv : s.resetStep.bufv = State.reset.bufv := by rfl
@[simp] theorem State.resetStep_seed : s.resetStep.seed = State.reset.seed := by rfl
@[simp] theorem State.resetStep_off : s.resetStep.off = State.reset.off := by rfl
@[simp] theorem State.resetStep_length : s.resetStep.length = State.reset.length := by rfl
@[simp] theorem State.resetStep_buflen : s.resetStep.buflen = State.reset.buflen := by rfl
@[simp] theorem State.resetStep_h1 : s.resetStep.h1 = State.reset.h1 := by rfl
@[simp] theorem State.resetStep_h2 : s.resetStep.h2 = State.reset.h2 := by rfl
@[simp] theorem State.resetStep_mlen : s.resetStep.mlen = State.reset.mlen := by rfl
@[simp] theorem State.resetStep_blk : s.resetStep.blk = State.reset.blk := by rfl
@[simp] theorem State.resetStep_digest : s.resetStep.digest = State.reset.digest := by rfl
@[simp] theorem State.resetStep_ibuf : s.resetStep.ibuf = State.reset.ibuf := by rfl
@[simp] theorem State.resetStep_pend : s.resetStep.pend = State.reset.pend := by rfl
@[simp] theorem State.resetStep_cfg : s.resetStep.cfg = s.cfg := by rfl
@[simp] theorem State.resetStep_epoch : s.resetStep.epoch = s.epoch + 1 := by rfl
@[simp] theorem State.resetStep_agenda : s.resetStep.agenda = s.agenda := by rfl
@[simp] theorem State.resetStep_responses : s.resetStep.responses = s.responses := by rfl

/-- The updates that do not touch IBUF leave every byte of it readable as before. -/
theorem State.ibufByte_congr {s t : State} (hm : t.ibuf = s.ibuf) (he : t.epoch = s.epoch) (j : Nat) :
    t.ibufByte j = s.ibufByte j := by
  simp [State.ibufByte, hm, he]

end Sys2Proof.Machine
end

