-- ==== Sys2Proof/Laws/Commands.lean ====
section
/-! SUPPORT. What each command can do, said once: the later proofs cite these and do not unfold the meanings. -/

namespace Sys2Proof.Machine

variable {s t : State}

theorem raise_eq_next {e : ErrCode} : raise e s = .next t ↔ t = s.complete e := by
  simp [raise, eq_comm]

theorem succeed_eq_next : succeed s = .next t ↔ t = s.complete .none := by
  simp [succeed, eq_comm]

/-! The next state of each command that succeeds and of one that fails, field by field. Each is stated over any
accumulators, length and digest, so that no proof computes the datapath. -/

theorem raise_fields (e : ErrCode) (s : State) :
    raise e s = .next { s with err := e, pend := ⟨false, s.pend.word⟩ } := rfl

theorem succeed_init (l : Word × Word) (m : Word) (p : Phase) :
    succeed (((s.setLanes l).setMlen m).setPhase p) =
      .next { s with h1 := l.1, h2 := l.2, mlen := m, phase := p, err := .none, pend := ⟨false, s.pend.word⟩ } := rfl

theorem succeed_block (l : Word × Word) (m : Word) :
    succeed ((s.setLanes l).setMlen m) =
      .next { s with h1 := l.1, h2 := l.2, mlen := m, err := .none, pend := ⟨false, s.pend.word⟩ } := rfl

theorem succeed_final (l : Word × Word) (D : Vector Byte 16) (p : Phase) :
    succeed (((s.setLanes l).setDigest D).setPhase p) =
      .next { s with
        h1 := l.1, h2 := l.2, digest := D, phase := p, err := .none, pend := ⟨false, s.pend.word⟩ } := rfl

theorem succeed_hash (l : Word × Word) (m : Word) (D : Vector Byte 16) (p : Phase) :
    succeed ((((s.setLanes l).setMlen m).setDigest D).setPhase p) =
      .next { s with
        h1 := l.1, h2 := l.2, mlen := m, digest := D, phase := p, err := .none
        pend := ⟨false, s.pend.word⟩ } := rfl

/-- HASH's checks keep its read inside IBUF (20_memory.md R67). -/
theorem memRead_of_windowOk (h : s.WindowOk) :
    s.memRead (int64 s.off).toNat (int64 s.length).toNat =
      some (s.ibufBytes (int64 s.off).toNat (int64 s.length).toNat) := by
  obtain ⟨ho, hl, -, hc⟩ := h
  rw [State.memRead, if_pos]
  omega

theorem execInit_inv (h : execInit s = .next t) :
    t = (((s.setLanes (seedLanes s.seed)).setMlen 0).setPhase .absorb).complete .none :=
  succeed_eq_next.1 h

theorem execBlock_inv (h : execBlock s = .next t) :
    (s.phase = .absorb ∧
      t = ((s.setLanes (blockMix (s.h1, s.h2) (le64 (regByte s.blk) 0) (le64 (regByte s.blk) 8))).setMlen
        (s.mlen + 16)).complete .none) ∨
    (s.phase ≠ .absorb ∧ t = s.complete .phaseError) := by
  unfold execBlock at h
  split at h
  · exact .inl ⟨‹_›, succeed_eq_next.1 h⟩
  · exact .inr ⟨‹_›, raise_eq_next.1 h⟩

theorem execTail_inv {n : Nat} (h : execTail n s = .next t) :
    (s.phase = .absorb ∧
      t = (((s.setLanes (tailAbsorb (s.h1, s.h2) (arrayOf (regBytes s.blk n)) n)).setMlen
        (s.mlen + BitVec.ofNat 64 n)).setPhase .tailed).complete .none) ∨
    (s.phase ≠ .absorb ∧ t = s.complete .phaseError) := by
  unfold execTail at h
  split at h
  · exact .inl ⟨‹_›, succeed_eq_next.1 h⟩
  · exact .inr ⟨‹_›, raise_eq_next.1 h⟩

theorem finalLegal_iff (p : Phase) : finalLegal p = true ↔ p = .absorb ∨ p = .tailed := by
  cases p <;> simp [finalLegal]

theorem execFinal_inv (h : execFinal s = .next t) :
    ((s.phase = .absorb ∨ s.phase = .tailed) ∧
      t = (((s.setLanes (finalMix (s.h1, s.h2) s.mlen)).setDigest (pack (finalMix (s.h1, s.h2) s.mlen))).setPhase
        .done).complete .none) ∨
    (¬ (s.phase = .absorb ∨ s.phase = .tailed) ∧ t = s.complete .phaseError) := by
  unfold execFinal at h
  rw [← finalLegal_iff]
  split at h
  · exact .inl ⟨‹_›, succeed_eq_next.1 h⟩
  · exact .inr ⟨‹_›, raise_eq_next.1 h⟩

/-- HASH in one equation, its read of IBUF resolved. -/
theorem execHash_eq (s : State) :
    execHash s =
      if s.bufv = false then raise .nullInput s
      else if s.WindowOk then
        succeed ((((s.setLanes (mmh3 s.seed (s.ibufBytes (int64 s.off).toNat (int64 s.length).toNat))).setMlen
          s.length).setDigest (digestOf s.seed (s.ibufBytes (int64 s.off).toNat (int64 s.length).toNat))).setPhase .done)
      else raise .invalidArgument s := by
  unfold execHash
  by_cases hb : s.bufv = false
  · rw [if_pos hb, if_pos hb]
  · by_cases hw : s.WindowOk
    · rw [if_neg hb, if_neg hb, if_pos hw, if_pos hw, memRead_of_windowOk hw]
      rfl
    · rw [if_neg hb, if_neg hb, if_neg hw, if_neg hw]

theorem execHash_inv (h : execHash s = .next t) :
    (s.bufv = false ∧ t = s.complete .nullInput) ∨
    (s.bufv = true ∧ ¬ s.WindowOk ∧ t = s.complete .invalidArgument) ∨
    (s.bufv = true ∧ s.WindowOk ∧
      t = ((((s.setLanes (mmh3 s.seed (s.ibufBytes (int64 s.off).toNat (int64 s.length).toNat))).setMlen
          s.length).setDigest (digestOf s.seed (s.ibufBytes (int64 s.off).toNat
            (int64 s.length).toNat))).setPhase .done).complete .none) := by
  rw [execHash_eq] at h
  split at h
  · exact .inl ⟨‹_›, raise_eq_next.1 h⟩
  · rename_i hb
    split at h
    · exact .inr (.inr ⟨by simpa using hb, ‹_›, succeed_eq_next.1 h⟩)
    · exact .inr (.inl ⟨by simpa using hb, ‹_›, raise_eq_next.1 h⟩)

/-- A success that leaves the digest alone, written with the digest it keeps. -/
theorem keep_digest (l : Word × Word) (m : Word) (p : Phase) :
    ((s.setLanes l).setMlen m).setPhase p = (((s.setLanes l).setMlen m).setDigest s.digest).setPhase p := rfl

/-- BLOCK keeps the phase as well. -/
theorem keep_phase (l : Word × Word) (m : Word) :
    (s.setLanes l).setMlen m = (((s.setLanes l).setMlen m).setDigest s.digest).setPhase s.phase := rfl

/-- FINAL keeps the length. -/
theorem keep_mlen (l : Word × Word) (D : Vector Byte 16) (p : Phase) :
    ((s.setLanes l).setDigest D).setPhase p = (((s.setLanes l).setMlen s.mlen).setDigest D).setPhase p := rfl

/-- What a command can do: fail, touching ERR and PEND.valid alone, or succeed with new accumulators, length, phase and
digest, and the digest changes only on the way to DONE, where it is the packed pair of accumulators. -/
theorem exec_inv {i : Instr} (h : exec i s = .next t) :
    (∃ e, e ≠ .none ∧ t = s.complete e) ∨
    (∃ (l : Word × Word) (m : Word) (p : Phase) (D : Vector Byte 16),
      t = ((((s.setLanes l).setMlen m).setDigest D).setPhase p).complete .none ∧
      ((p = .absorb ∧ D = s.digest ∧ ((i = .init ∧ m = 0) ∨ (i = .block ∧ s.phase = .absorb ∧ m = s.mlen + 16))) ∨
       (p = .tailed ∧ D = s.digest ∧ ∃ n, i = .tail n) ∨
       (p = .done ∧ D = pack l ∧ (i = .final ∨ i = .hash)))) := by
  cases i with
  | init =>
    have ht := execInit_inv h
    rw [keep_digest] at ht
    exact .inr ⟨_, _, _, _, ht, .inl ⟨rfl, rfl, .inl ⟨rfl, rfl⟩⟩⟩
  | block =>
    obtain ⟨hp, ht⟩ | ⟨-, ht⟩ := execBlock_inv h
    · rw [keep_phase] at ht
      exact .inr ⟨_, _, _, _, ht, .inl ⟨hp, rfl, .inr ⟨rfl, hp, rfl⟩⟩⟩
    · exact .inl ⟨_, by decide, ht⟩
  | tail n =>
    obtain ⟨-, ht⟩ | ⟨-, ht⟩ := execTail_inv h
    · rw [keep_digest] at ht
      exact .inr ⟨_, _, _, _, ht, .inr (.inl ⟨rfl, rfl, n, rfl⟩)⟩
    · exact .inl ⟨_, by decide, ht⟩
  | final =>
    obtain ⟨-, ht⟩ | ⟨-, ht⟩ := execFinal_inv h
    · rw [keep_mlen] at ht
      exact .inr ⟨_, _, _, _, ht, .inr (.inr ⟨rfl, rfl, .inl rfl⟩)⟩
    · exact .inl ⟨_, by decide, ht⟩
  | hash =>
    obtain ⟨-, ht⟩ | ⟨-, -, ht⟩ | ⟨-, -, ht⟩ := execHash_inv h
    · exact .inl ⟨_, by decide, ht⟩
    · exact .inl ⟨_, by decide, ht⟩
    · exact .inr ⟨_, _, _, _, ht, .inr (.inr ⟨rfl, rfl, .inr rfl⟩)⟩

end Sys2Proof.Machine
end

