-- ==== Sys2Proof/Laws/HostBus.lean ====
section
/-! SUPPORT. What a HOST transaction can do, said once. -/

namespace Sys2Proof.Machine

variable {s t : State}

/-- An IBUF access lies inside IBUF. -/
theorem regionOf_ibuf {c : Config} {a j : Nat} {n : Width} (h : regionOf c a n = some (.ibuf j)) :
    a = 0x1000 + j ∧ j + n.bytes ≤ c.ibufBytes := by
  unfold regionOf at h
  split at h
  · split at h
    · unfold registerAt at h
      split at h <;> simp at h
    · simp at h
  · split at h
    · simp at h
    · split at h
      · simp at h
      · split at h
        · simp at h
        · split at h
          · rename_i hw
            simp only [Option.some.injEq, Region.ibuf.injEq] at h
            omega
          · simp at h

/-- A write is a BUSERR that changes nothing, a dropped write that sets OVR alone, or it takes effect. -/
theorem busWrite_inv {a : Nat} {n : Width} {v : Word} {r : Response} (h : busWrite a n v s = (t, r)) :
    (t = s ∧ r = .busErr) ∨
    (∃ g, regionOf s.cfg a n = some g ∧ g.writable = true ∧ r = .ok ∧
      ((s.pend.valid = true ∧ g ≠ .status ∧ t = s.overrun) ∨
       ((s.pend.valid = false ∨ g = .status) ∧ t = s.writeRegion n v g))) := by
  unfold busWrite at h
  split at h
  · simp only [Prod.mk.injEq] at h
    exact .inl ⟨h.1.symm, h.2.symm⟩
  · rename_i g hg
    split at h
    · simp only [Prod.mk.injEq] at h
      exact .inl ⟨h.1.symm, h.2.symm⟩
    · rename_i hw
      refine .inr ⟨g, hg, by simpa using hw, ?_⟩
      split at h
      · rename_i hb
        simp only [Prod.mk.injEq] at h
        exact ⟨h.2.symm, .inl ⟨hb.1, hb.2, h.1.symm⟩⟩
      · rename_i hb
        simp only [Prod.mk.injEq] at h
        refine ⟨h.2.symm, .inr ⟨?_, h.1.symm⟩⟩
        by_cases hst : g = .status
        · exact .inr hst
        · exact .inl (by simpa [State.busy, hst] using hb)

/-- A transaction leaves the state as it is, sets OVR because a write was dropped, or performs a legal write. -/
theorem busTxn_inv (x : Txn) (s : State) :
    (busTxn x s).1 = s ∨
    (s.pend.valid = true ∧ (busTxn x s).1 = s.overrun) ∨
    (∃ a n v g, x = .write a n v ∧ regionOf s.cfg a n = some g ∧ g.writable = true ∧
      (s.pend.valid = false ∨ g = .status) ∧ (busTxn x s).1 = s.writeRegion n v g) := by
  cases x with
  | read a n => exact .inl rfl
  | write a n v =>
    obtain ⟨h, -⟩ | ⟨g, hg, hw, -, ⟨hb, -, h⟩ | ⟨hb, h⟩⟩ := busWrite_inv (s := s) (a := a) (n := n) (v := v) rfl
    · exact .inl h
    · exact .inr (.inl ⟨hb, h⟩)
    · exact .inr (.inr ⟨a, n, v, g, rfl, hg, hw, hb, h⟩)

section frame

variable (s : State) (n : Width) (v : Word) (g : Region)

@[simp] theorem State.writeRegion_h1 : (s.writeRegion n v g).h1 = s.h1 := by cases g <;> rfl
@[simp] theorem State.writeRegion_h2 : (s.writeRegion n v g).h2 = s.h2 := by cases g <;> rfl
@[simp] theorem State.writeRegion_mlen : (s.writeRegion n v g).mlen = s.mlen := by cases g <;> rfl
@[simp] theorem State.writeRegion_digest : (s.writeRegion n v g).digest = s.digest := by cases g <;> rfl
@[simp] theorem State.writeRegion_phase : (s.writeRegion n v g).phase = s.phase := by cases g <;> rfl
@[simp] theorem State.writeRegion_err : (s.writeRegion n v g).err = s.err := by cases g <;> rfl
@[simp] theorem State.writeRegion_cfg : (s.writeRegion n v g).cfg = s.cfg := by cases g <;> rfl
@[simp] theorem State.writeRegion_epoch : (s.writeRegion n v g).epoch = s.epoch := by cases g <;> rfl
@[simp] theorem State.writeRegion_agenda : (s.writeRegion n v g).agenda = s.agenda := by cases g <;> rfl
@[simp] theorem State.writeRegion_responses : (s.writeRegion n v g).responses = s.responses := by cases g <;> rfl

/-- Only an IBUF write touches the IBUF record. -/
theorem State.writeRegion_ibuf :
    (s.writeRegion n v g).ibuf = s.ibuf ∨ ∃ j, g = .ibuf j ∧ (s.writeRegion n v g).ibuf = Memory.write s.ibuf j v n.bytes := by
  cases g with
  | ibuf j => exact .inr ⟨j, rfl, rfl⟩
  | _ => exact .inl rfl

end frame

end Sys2Proof.Machine
end

