-- ==== Sys2Proof/Laws/Memory.lean ====
section
/-! SUPPORT. The laws of the IBUF record: read after write, frame, and that every operation keeps the canonical form. -/

namespace Sys2Proof.Machine

theorem Memory.lookup_insert (m : Memory) (a : Nat) (v : Byte) (b : Nat) :
    Memory.lookup (Memory.insert m a v) b = if b = a then some v else Memory.lookup m b := by
  induction m with
  | nil => simp [Memory.insert, Memory.lookup]
  | cons c m ih =>
    obtain ⟨k, w⟩ := c
    by_cases h1 : a < k
    · simp [Memory.insert, Memory.lookup, h1]
    · by_cases h2 : a = k
      · subst h2
        by_cases hb : b = a <;> simp [Memory.insert, Memory.lookup, hb]
      · have hk : ¬ k = a := fun h => h2 h.symm
        by_cases hb : b = k
        · simp [Memory.insert, Memory.lookup, h1, h2, hb, hk]
        · simp [Memory.insert, Memory.lookup, h1, h2, hb, ih]

/-- An entry of the record after an insertion is the inserted one or an old one. -/
theorem Memory.mem_insert {m : Memory} {a : Nat} {v : Byte} {c : Host.Cell} (h : c ∈ Memory.insert m a v) :
    c.1 = a ∨ c ∈ m := by
  induction m with
  | nil => simp [Memory.insert] at h; simp [h]
  | cons d m ih =>
    obtain ⟨k, w⟩ := d
    simp only [Memory.insert] at h
    split at h
    · rcases List.mem_cons.1 h with rfl | h
      · exact .inl rfl
      · exact .inr h
    · split at h
      · rcases List.mem_cons.1 h with rfl | h
        · exact .inl rfl
        · exact .inr (List.mem_cons_of_mem _ h)
      · rcases List.mem_cons.1 h with rfl | h
        · exact .inr List.mem_cons_self
        · exact (ih h).imp id (List.mem_cons_of_mem _)

theorem Memory.wf_insert {m : Memory} (hm : Memory.wf m) (a : Nat) (v : Byte) : Memory.wf (Memory.insert m a v) := by
  induction m with
  | nil => simp [Memory.insert]
  | cons d m ih =>
    obtain ⟨k, w⟩ := d
    have hd := List.pairwise_cons.1 hm
    obtain ⟨hk, ht⟩ := hd
    simp only [Memory.insert]
    split
    · rename_i h
      refine List.pairwise_cons.2 ⟨fun c hc => ?_, hm⟩
      rcases List.mem_cons.1 hc with rfl | hc
      · exact h
      · exact Nat.lt_trans h (hk c hc)
    · split
      · rename_i h
        subst h
        exact List.pairwise_cons.2 ⟨hk, ht⟩
      · rename_i h1 h2
        refine List.pairwise_cons.2 ⟨fun c hc => ?_, ih ht⟩
        rcases Memory.mem_insert hc with h | hc
        · simp only [h]; omega
        · exact hk c hc

/-- Read after write, and the frame of a write, in one equation. -/
theorem Memory.lookup_write (m : Memory) (a : Nat) (v : Word) (n b : Nat) :
    Memory.lookup (Memory.write m a v n) b =
      if a ≤ b ∧ b < a + n then some (byteAt v (b - a)) else Memory.lookup m b := by
  induction n with
  | zero =>
    have h : ¬ (a ≤ b ∧ b < a + 0) := by omega
    rw [if_neg h, Memory.write]
  | succ n ih =>
    rw [Memory.write, Memory.lookup_insert, ih]
    by_cases hb : b = a + n
    · subst hb
      simp
    · have : (a ≤ b ∧ b < a + (n + 1)) ↔ (a ≤ b ∧ b < a + n) := by omega
      simp only [hb, if_false, this]

theorem Memory.wf_write {m : Memory} (hm : Memory.wf m) (a : Nat) (v : Word) (n : Nat) :
    Memory.wf (Memory.write m a v n) := by
  induction n with
  | zero => exact hm
  | succ n ih => exact Memory.wf_insert ih _ _

theorem Memory.mem_write {m : Memory} {a : Nat} {v : Word} {n : Nat} {c : Host.Cell}
    (h : c ∈ Memory.write m a v n) : (a ≤ c.1 ∧ c.1 < a + n) ∨ c ∈ m := by
  induction n with
  | zero => exact .inr h
  | succ n ih =>
    rcases Memory.mem_insert h with h | h
    · exact .inl (by omega)
    · exact (ih h).imp (fun h => by omega) id

theorem Memory.lookup_eq_none_of_lt {m : Memory} {a : Nat} (h : ∀ c ∈ m, a < c.1) : Memory.lookup m a = none := by
  induction m with
  | nil => rfl
  | cons d m ih =>
    have hd : ¬ a = d.1 := Nat.ne_of_lt (h d List.mem_cons_self)
    simp [Memory.lookup, hd, ih fun c hc => h c (List.mem_cons_of_mem _ hc)]

/-- Canonical records that read alike are equal data. -/
theorem Memory.ext_of_wf {m n : Memory} (hm : Memory.wf m) (hn : Memory.wf n)
    (h : ∀ a, Memory.lookup m a = Memory.lookup n a) : m = n := by
  induction m generalizing n with
  | nil =>
    cases n with
    | nil => rfl
    | cons d n => have := h d.1; simp [Memory.lookup] at this
  | cons c m ih =>
    cases n with
    | nil => have := h c.1; simp [Memory.lookup] at this
    | cons d n =>
      obtain ⟨hc, hmt⟩ := List.pairwise_cons.1 hm
      obtain ⟨hd, hnt⟩ := List.pairwise_cons.1 hn
      obtain ⟨k, v⟩ := c
      obtain ⟨l, w⟩ := d
      have key : k = l := by
        rcases Nat.lt_trichotomy k l with hkl | hkl | hkl
        · have h1 := h k
          rw [Memory.lookup_eq_none_of_lt (m := (l, w) :: n) (a := k) fun c hcm => by
            rcases List.mem_cons.1 hcm with rfl | hcm
            · exact hkl
            · exact Nat.lt_trans hkl (hd c hcm)] at h1
          simp [Memory.lookup] at h1
        · exact hkl
        · have h1 := h l
          rw [Memory.lookup_eq_none_of_lt (m := (k, v) :: m) (a := l) fun c hcm => by
            rcases List.mem_cons.1 hcm with rfl | hcm
            · exact hkl
            · exact Nat.lt_trans hkl (hc c hcm)] at h1
          simp [Memory.lookup] at h1
      subst key
      have hv : v = w := by simpa [Memory.lookup] using h k
      subst hv
      congr 1
      refine ih hmt hnt fun a => ?_
      by_cases ha : a = k
      · subst ha
        rw [Memory.lookup_eq_none_of_lt hc, Memory.lookup_eq_none_of_lt hd]
      · simpa [Memory.lookup, ha] using h a

end Sys2Proof.Machine
end

