-- ==== Sys2Proof/Laws/Operands.lean ====
section
/-! SUPPORT. The laws of the byte views: lists as arrays and the 16-byte registers. -/

namespace Sys2Proof.Machine

theorem regByte_of_lt {B : Vector Byte 16} {j : Nat} (h : j < 16) : regByte B j = B[j] := by
  simp [regByte, h]

@[simp] theorem regByte_ofFn {f : Fin 16 → Byte} {j : Nat} (h : j < 16) : regByte (Vector.ofFn f) j = f ⟨j, h⟩ := by
  simp [regByte, h]

/-- Two 16-byte registers with the same bytes are equal. -/
theorem reg_ext {B C : Vector Byte 16} (h : ∀ j, j < 16 → regByte B j = regByte C j) : B = C := by
  refine Vector.ext fun j hj => ?_
  simpa [regByte, hj] using h j hj

/-- A byte of BLK after a write: read after write and frame in one equation. -/
theorem regByte_setRegBytes (B : Vector Byte 16) (j n : Nat) (v : Word) {k : Nat} (hk : k < 16) :
    regByte (setRegBytes B j n v) k = if j ≤ k ∧ k < j + n then byteAt v (k - j) else regByte B k := by
  rw [setRegBytes, regByte_ofFn hk, regByte_of_lt hk]

theorem arrayOf_regBytes (B : Vector Byte 16) {i n : Nat} (hi : i < n) (h16 : i < 16) :
    arrayOf (regBytes B n) i = regByte B i := by
  simp [arrayOf, regBytes, regByte, List.getD_eq_getElem?_getD, hi, h16]

theorem arrayOf_map_range (f : Nat → Byte) {i n : Nat} (hi : i < n) : arrayOf ((List.range n).map f) i = f i := by
  simp [arrayOf, List.getD_eq_getElem?_getD, hi]

theorem arrayOf_drop (M : List Byte) (d i : Nat) : arrayOf (M.drop d) i = arrayOf M (d + i) := by
  simp [arrayOf, List.getD_eq_getElem?_getD]

/-- The little-endian value depends only on the bytes it reads. -/
theorem leBytes_congr {f g : Nat → Byte} {n : Nat} (h : ∀ i, i < n → f i = g i) : leBytes f n = leBytes g n := by
  induction n with
  | zero => rfl
  | succ n ih => rw [leBytes, leBytes, ih fun i hi => h i (by omega), h n (by omega)]

theorem le64_congr {A B : Nat → Byte} {j k : Nat} (h : ∀ i, i < 8 → A (j + i) = B (k + i)) : le64 A j = le64 B k :=
  leBytes_congr h

end Sys2Proof.Machine
end

