-- ==== Sys2Proof/Laws/PerInstr.lean ====
section
/-! SUPPORT. The family Codec: every well-formed command's canonical word decodes to it, constructor by constructor. -/

namespace Sys2Proof.Laws.Codec

/-- The canonical word of a well-formed command decodes to that command. -/
def Statement (i : Instr) : Prop := i.wellFormed = true → decode (encode i) = .command i

theorem init : Statement .init := fun _ => by decide

theorem block : Statement .block := fun _ => by decide

theorem tail (n : Nat) : Statement (.tail n) := fun h => by
  have hn : n ≤ 15 := by simpa [Instr.wellFormed] using h
  interval_cases n <;> decide

theorem final : Statement .final := fun _ => by decide

theorem hash : Statement .hash := fun _ => by decide

end Sys2Proof.Laws.Codec
end

