-- ==== Sys2Proof/Laws/Step.lean ====
section
/-! SUPPORT. What one step can do, said once. -/

namespace Sys2Proof.Machine

variable {s t : State}

theorem completionStep_inv (h : completionStep s = .next t) :
    (∃ i, decode s.pend.word = .command i ∧ exec i s = .next t) ∨
    (∃ why, decode s.pend.word = .illegal why ∧ t = s.complete .illegalCommand) := by
  unfold completionStep at h
  split at h
  · exact .inl ⟨_, ‹_›, h⟩
  · exact .inr ⟨_, ‹_›, raise_eq_next.1 h⟩

theorem coreTurn_inv (h : coreTurn s = .next t) :
    (s.pend.valid = false ∧ t = s) ∨ (s.pend.valid = true ∧ completionStep s = .next t) := by
  unfold coreTurn at h
  split at h
  · exact .inr ⟨‹_›, h⟩
  · rename_i hb
    simp only [Host.Outcome.next.injEq] at h
    exact .inl ⟨by simpa [State.busy] using hb, h.symm⟩

/-- A step is the CORE's turn, a HOST transaction or RESET. -/
theorem step_inv (h : step s = .next t) :
    (s.agenda = [] ∧ coreTurn s = .next t) ∨
    (∃ l, s.agenda = .core :: l ∧ coreTurn (s.setAgenda l) = .next t) ∨
    (∃ x l, s.agenda = .host x :: l ∧ t = hostStep x (s.setAgenda l)) ∨
    (∃ l, s.agenda = .reset :: l ∧ t = (s.setAgenda l).resetStep) := by
  unfold step at h
  split at h
  · exact .inl ⟨‹_›, h⟩
  · exact .inr (.inl ⟨_, ‹_›, h⟩)
  · simp only [Host.Outcome.next.injEq] at h
    exact .inr (.inr (.inl ⟨_, _, ‹_›, h.symm⟩))
  · simp only [Host.Outcome.next.injEq] at h
    exact .inr (.inr (.inr ⟨_, ‹_›, h.symm⟩))

end Sys2Proof.Machine
end

