-- ==== Sys2Proof/Tests/Slice0.lean ====
section
/-! SUPPORT. Tests. Expected values are those of 95_test_vectors.md (the vector is named in each comment) or are written
out from the spec's encoding; and one witness per statement of Obligations.lean that has hypotheses. -/

namespace Sys2Proof.Tests

open Sys2Proof.Machine

/-- A field of the next state, if there is one. -/
def after {α : Type} (o : Host.Outcome State Fault Refusal) (f : State → α) : Option α :=
  match o with
  | .next t => some (f t)
  | .fault _ => none
  | .refused _ => none

/-- The three result values a command's test looks at. -/
def lanes (s : State) : Word × Word × Word := (s.h1, s.h2, s.mlen)

/-- Reset state with a phase and a seed. -/
def inPhase (p : Phase) : State := { State.reset with phase := p }

/-- BLK holding the bytes 00 01 .. 0f (V-B4). -/
def countingBlk : Vector Byte 16 := #v[0, 1, 2, 3, 4, 5, 6, 7, 8, 9, 10, 11, 12, 13, 14, 15]

/-- IBUF of program P3: "AB", the V-G3 message, "CD", as six 8-byte writes. -/
def p3Ibuf : Memory :=
  Memory.write (Memory.write (Memory.write (Memory.write (Memory.write (Memory.write []
    0x00 0x7571206568544241 8) 0x08 0x776f7262206b6369 8) 0x10 0x756a20786f66206e 8) 0x18 0x7265766f2073706d 8)
    0x20 0x7a616c2065687420 8) 0x28 0x44432e676f642079 8

/-- The state of program P3 before its HASH. -/
def p3State : State := { State.reset with bufv := true, buflen := 48, off := 2, length := 44, ibuf := p3Ibuf }

/-- A command pending, nothing else to come. -/
def pending (w : Word) : State := { State.reset with pend := ⟨true, w⟩ }

/-! ### Well-formedness: the one check refuses an ill-formed term -/

theorem test_wellFormed_refuses_tail_16 : (Instr.tail 16).wellFormed = false := by decide

theorem test_wellFormed_accepts_tail_15 : (Instr.tail 15).wellFormed = true := by decide

/-! ### Decoding: words written bit by bit from `RSVD TTTT OOOO` (R101, R102) -/

theorem test_decode_init : decode 0b0000_0001 = .command .init := by decide
theorem test_decode_block : decode 0b0000_0010 = .command .block := by decide
theorem test_decode_tail_0 : decode 0b0000_0011 = .command (.tail 0) := by decide
theorem test_decode_tail_12 : decode 0b1100_0011 = .command (.tail 12) := by decide
theorem test_decode_tail_15 : decode 0b1111_0011 = .command (.tail 15) := by decide
theorem test_decode_final : decode 0b0000_0100 = .command .final := by decide
theorem test_decode_hash : decode 0b0000_0101 = .command .hash := by decide

/-- V-E1, V-E3, V-E8, V-E10 to V-E13. -/
theorem test_decode_illegal :
    decode 0 = .illegal .opcode ∧ decode 0x11 = .illegal .tlen ∧ decode 0x103 = .illegal .reserved ∧
    decode 0x45 = .illegal .tlen ∧ decode 0x8000000000000005 = .illegal .reserved ∧
    decode 0x6 = .illegal .opcode ∧ decode 0xF = .illegal .opcode := by decide

theorem test_decodeTableWord : decodeTableWord 64 0xC3 = some (.tail 12) ∧ decodeTableWord 8 0x53 = some (.tail 5) := by
  decide

/-! ### The datapath -/

/-- V-A2 to V-A5, V-A12. -/
theorem test_rotl_bswap :
    rotl64 0x0123456789abcdef 27 = 0x3c4d5e6f78091a2b ∧ rotl64 0x0123456789abcdef 31 = 0xc4d5e6f78091a2b3 ∧
    rotl64 0x0123456789abcdef 33 = 0x13579bde02468acf ∧ rotl64 0x8000000000000000 31 = 0x0000000040000000 ∧
    bswap64 0xcbd8a7b341bd9b02 = 0x029bbd41b3a7d8cb := by decide

/-- V-K4, V-K5. -/
theorem test_kMix :
    kMix1 0xffffffffffffffff = 0x11cc7f70ecdb6e49 ∧ kMix2 0xffffffffffffffff = 0x4c9a36c55305e8ad ∧
    kMix1 0x8000000000000000 = 0xc9d164dfc0000000 ∧ kMix2 0x8000000000000000 = 0x114253d500000000 := by decide

/-- V-B5, V-B6. -/
theorem test_blockMix :
    blockMix (0x19, 0x19) 0 0 = (0x000000043adce7a6, 0x00000053de99e0f3) ∧
    blockMix (0xffffffffffffffff, 0xffffffffffffffff) 0xffffffffffffffff 0xffffffffffffffff =
      (0x5afdb6c4e814f338, 0x7765cc27813091de) := by decide

/-- V-T2, rows 7, 8, 9 and 15, and the row 15 from all-ones. -/
theorem test_tailAbsorb :
    tailAbsorb (0, 0) (regByte countingBlk) 7 = (0x465675429435358e, 0) ∧
    tailAbsorb (0, 0) (regByte countingBlk) 8 = (0xdf62d7cbeab5358e, 0) ∧
    tailAbsorb (0, 0) (regByte countingBlk) 9 = (0xdf62d7cbeab5358e, 0x3bb5526b0042c39a) ∧
    tailAbsorb (0, 0) (regByte countingBlk) 15 = (0xdf62d7cbeab5358e, 0xb4056a719daec42d) ∧
    tailAbsorb (0xffffffffffffffff, 0xffffffffffffffff) (regByte countingBlk) 15 =
      (0x209d2834154aca71, 0x4bfa958e62513bd2) := by decide

/-- V-F4, V-F7, V-FM5, V-FM7. -/
theorem test_finalMix :
    fMix64 5 = 0xd66ad737d54c5575 ∧ fMix64 0x0123456789abcdef = 0x87cbfbfe89022cea ∧
    finalMix (1, 0) 0 = (0x68ad79f869859658, 0x1d0436f49e486184) ∧
    finalMix (0, 0) 0x8000000000000000 = (0x8f780810af31a493, 0x1ef010215e634926) := by decide

/-- V-G2 "hello" and V-G5 "test", GMH3's golden vectors. -/
theorem test_digest_golden :
    digestOf 0 [0x68, 0x65, 0x6c, 0x6c, 0x6f] =
      #v[0xcb, 0xd8, 0xa7, 0xb3, 0x41, 0xbd, 0x9b, 0x02, 0x5b, 0x1e, 0x90, 0x6a, 0x48, 0xae, 0x1d, 0x19] ∧
    digestOf 38 [0x74, 0x65, 0x73, 0x74] =
      #v[0x48, 0x43, 0x89, 0xac, 0x86, 0x8b, 0xb4, 0x7f, 0x5e, 0xad, 0xa4, 0xa4, 0xed, 0xfc, 0xd9, 0xa2] := by decide

/-! ### The commands -/

/-- R128's example, from DONE: INIT is legal in every phase. -/
theorem test_init :
    after (exec .init { inPhase .done with seed := 0x19, mlen := 5 }) lanes = some (0x19, 0x19, 0) := by decide

/-- V-B4: BLOCK of bytes 00..0f. -/
theorem test_block :
    after (exec .block { inPhase .absorb with blk := countingBlk }) lanes =
      some (0xdcac505ea5c458df, 0x72927c4be244042d, 16) := by decide

/-- R129: MLEN wraps. -/
theorem test_block_mlen_wraps :
    after (exec .block { inPhase .absorb with mlen := 0xFFFFFFFFFFFFFFF8 }) (·.mlen) = some 8 := by decide

/-- P1 step 5 and P5 step 3: TAIL 5 of "hello"; TAIL 4 ignores the stale fifth byte. -/
theorem test_tail :
    after (exec (.tail 5) { inPhase .absorb with blk := setRegBytes (Vector.replicate 16 0) 0 8 0x0000006f6c6c6568 })
      lanes = some (0x8c3f01c9e77511c7, 0, 5) ∧
    after (exec (.tail 4) { inPhase .absorb with
      h1 := 0x26, h2 := 0x26, blk := setRegBytes (Vector.replicate 16 0) 0 8 0x0000006f74736574 }) lanes =
      some (0x1c7bfd39450a1b71, 0x26, 4) := by decide

/-- V-PH7, V-PH8, V-PH10: phase errors show in STATUS. -/
theorem test_phase_errors :
    after (exec .block (inPhase .tailed)) State.statusWord = some 0x48 ∧
    after (exec (.tail 1) (inPhase .tailed)) State.statusWord = some 0x48 ∧
    after (exec .final (inPhase .done)) State.statusWord = some 0x4C := by decide

/-- R179's example: FINAL after TAIL 5 of "hello". -/
theorem test_final :
    after (exec .final { inPhase .tailed with h1 := 0x8c3f01c9e77511c7, mlen := 5 }) lanes =
      some (0xcbd8a7b341bd9b02, 0x5b1e906a48ae1d19, 5) := by decide

/-- P3: HASH of an unaligned sub-window, GMH3's golden vector V-G3. -/
theorem test_hash_subwindow :
    after (exec .hash p3State) lanes = some (0xcd99481f9ee902c9, 0x695da1a38987b6e7, 44) := by decide

/-- V-H1, V-H3, V-H5, V-H7, V-H8. -/
theorem test_hash_checks :
    after (exec .hash { p3State with off := 0xffffffffffffffff, length := 1 }) (·.err) = some .invalidArgument ∧
    after (exec .hash { p3State with off := 0, length := 49 }) (·.err) = some .invalidArgument ∧
    after (exec .hash { p3State with off := 49, length := 0 }) (·.err) = some .invalidArgument ∧
    after (exec .hash { p3State with off := 0x7fffffffffffffff, length := 0x7fffffffffffffff }) (·.err) =
      some .invalidArgument ∧
    after (exec .hash { p3State with off := 0xffffffffffffffff, bufv := false }) (·.err) = some .nullInput := by decide

/-! ### Steps -/

/-- V-PH1, V-PH15, V-R: one step after the word is issued. -/
theorem test_step_runs_the_word :
    after (step (State.reset.withFetchWord 64 0x2)) State.statusWord = some 0x40 ∧
    after (step ((inPhase .tailed).withFetchWord 64 0x15)) State.statusWord = some 0x38 ∧
    after (step (State.reset.withFetchWord 64 0x5)) State.statusWord = some 0x10 := by decide

/-! ### The bus -/

/-- V-BUS1 to V-BUS9, V-BUS12, V-BUS14. -/
theorem test_bus_responses :
    busRead 0x18 .b8 State.reset = .data 0x80 ∧ busRead 0x00 .b8 State.reset = .data 0 ∧
    (busWrite 0x18 .b8 1 State.reset).2 = .busErr ∧ (busWrite 0x40 .b8 5 State.reset).2 = .busErr ∧
    (busWrite 0x70 .b8 0 State.reset).2 = .busErr ∧ busRead 0x20 .b4 State.reset = .busErr ∧
    busRead 0x58 .b8 State.reset = .busErr ∧ busRead 0x80 .b8 State.reset = .busErr ∧
    (busWrite 0x61 .b2 0x1234 State.reset).2 = .busErr ∧ busRead 0x1004 .b8 State.reset = .busErr ∧
    busRead 0x2000 .b1 State.reset = .busErr := by decide

/-- V-BUS10, V-BUS11, V-BUS13. -/
theorem test_bus_bytes :
    busRead 0x60 .b8 (busWrite 0x61 .b1 0x65 State.reset).1 = .data 0x0000000000006500 ∧
    busRead 0x60 .b2 (busWrite 0x60 .b8 0x0000006f6c6c6568 State.reset).1 = .data 0x6568 ∧
    busRead 0x64 .b4 (busWrite 0x60 .b8 0x0000006f6c6c6568 State.reset).1 = .data 0x0000006f ∧
    busRead 0x1004 .b1 (busWrite 0x1004 .b4 0x11223344 State.reset).1 = .data 0x44 ∧
    busRead 0x1007 .b1 (busWrite 0x1004 .b4 0x11223344 State.reset).1 = .data 0x11 := by decide

/-- V-BUS15 to V-BUS17, V-BUS19 to V-BUS22. -/
theorem test_bus_status_and_busy :
    busRead 0x08 .b8 (busWrite 0x08 .b8 0xffffffffffffffff State.reset).1 = .data 0 ∧
    (busWrite 0x08 .b8 0xfffffffffffffffd { State.reset with ovr := true }).1.ovr = true ∧
    (busWrite 0x08 .b8 0x2 { State.reset with ovr := true }).1.ovr = false ∧
    busRead 0x10 .b8 (busWrite 0x10 .b8 0xffffffffffffffff State.reset).1 = .data 1 ∧
    busWrite 0x20 .b8 7 (pending 1) = ({ pending 1 with ovr := true }, .ok) ∧
    busWrite 0x00 .b8 1 (pending 5) = ({ pending 5 with ovr := true }, .ok) ∧
    busWrite 0x18 .b8 0 (pending 1) = (pending 1, .busErr) := by decide

/-- V-P: the HOST's views of DIGEST for "hello". -/
theorem test_bus_digest_views :
    busRead 0x70 .b2 { State.reset with digest := pack (0xcbd8a7b341bd9b02, 0x5b1e906a48ae1d19) } = .data 0xd8cb ∧
    busRead 0x74 .b4 { State.reset with digest := pack (0xcbd8a7b341bd9b02, 0x5b1e906a48ae1d19) } =
      .data 0x029bbd41 ∧
    busRead 0x7F .b1 { State.reset with digest := pack (0xcbd8a7b341bd9b02, 0x5b1e906a48ae1d19) } = .data 0x19 := by
  decide

/-! ### Witnesses: states and operands that meet the hypotheses of the statements of Obligations.lean -/

/-- A second state whose window holds the same bytes as `p3State`'s first sixteen, at another offset. -/
def shiftedWindow : State :=
  { State.reset with
    phase := .tailed, bufv := true, buflen := 0xffffffffffffffff, off := 5, length := 16
    ibuf := Memory.write (Memory.write [] 5 0x6369757120656854 8) 13 0x206e776f7262206b 8 }

theorem witness_StepRunsThePendingCommand :
    (pending 2).pend.valid = true ∧ decode (pending 2).pend.word = .command .block ∧ (pending 2).agenda = [] ∧
    { pending 2 with agenda := [.core, .reset] }.agenda = .core :: [.reset] := by decide

theorem witness_OtherStepsAreHostResetOrIdle :
    { State.reset with agenda := [.host (.read 0 .b8)] }.agenda = .host (.read 0 .b8) :: [] ∧
    { State.reset with agenda := [.reset] }.agenda = .reset :: [] ∧
    { State.reset with agenda := [.core] }.agenda = .core :: [] ∧ State.reset.pend.valid = false ∧
    State.reset.agenda = [] := by decide

theorem witness_IssuedCommandRunsAtCompletion :
    (Instr.tail 15).wellFormed = true ∧ (Instr.tail 0).wellFormed = true ∧ State.reset.pend.valid = false ∧
    { State.reset with agenda := [.host (.write 0 .b8 (encode (.tail 15))), .core] }.agenda =
      .host (.write 0x00 .b8 (encode (.tail 15))) :: .core :: [] := by decide

theorem witness_IllegalWordsIssueAndCompleteWithCode3 :
    decode 0xF = .illegal .opcode ∧ decode 0xF5 = .illegal .tlen ∧ decode 0x100 = .illegal .reserved ∧
    decode 0xF3 = .command (.tail 15) ∧ State.reset.pend.valid = false ∧
    (pending 0xF).pend = ⟨true, 0xF⟩ ∧ (pending 0xF).agenda = [] ∧
    { pending 0xF with agenda := [.core] }.agenda = .core :: [] := by decide

theorem witness_bounds_of_the_datapath_statements :
    (33 ∈ [27, 31, 33] ∧ 63 < 64) ∧ 7 < 8 ∧ 0 ≤ 15 ∧ 15 ≤ 15 ∧ (8 + 7 ≤ 15 ∧ ¬ 8 + 7 < 15) := by decide

theorem witness_InitResult :
    after (exec .init State.reset) (·.err) = some .none ∧ (0x11 : Word).extractLsb' 0 4 = 1 ∧ (0x11 : Word) ≠ 1 := by
  decide

theorem witness_phases_of_the_command_results :
    (inPhase .absorb).phase = .absorb ∧ (inPhase .tailed).phase ≠ .absorb ∧ (inPhase .tailed).phase = .tailed ∧
    (inPhase .idle).phase = .idle ∧ (inPhase .done).phase = .done := by decide

/-- The window ends exactly at the buffer's end. -/
theorem witness_HashResult :
    let s := { p3State with length := 46 }
    s.bufv = true ∧ 0 ≤ s.off.toInt ∧ 0 ≤ s.length.toInt ∧ s.off.toInt + s.length.toInt ≤ (s.buflen.toNat : Int) ∧
    s.off.toInt + s.length.toInt ≤ (s.cfg.ibufBytes : Int) := by decide

theorem witness_HashArgumentChecks :
    State.reset.bufv = false ∧
    { p3State with off := 0xffffffffffffffff }.off.toInt < 0 ∧
    { p3State with length := 0x8000000000000000 }.length.toInt < 0 ∧
    (let s := { p3State with length := 47 }; (s.buflen.toNat : Int) < s.off.toInt + s.length.toInt) ∧
    (let s := { p3State with buflen := 8192, length := 4095 }; (s.cfg.ibufBytes : Int) < s.off.toInt + s.length.toInt) ∧
    (let s := { p3State with off := 48, length := 0 };
      s.length = 0 ∧ s.off.toNat ≤ min s.buflen.toNat s.cfg.ibufBytes ∧ s.cfg.WellFormed) ∧
    (let s := { p3State with off := 0x7FFFFFFFFFFFFFFF, length := 0x7FFFFFFFFFFFFFFF };
      s.bufv = true ∧ s.off = 0x7FFFFFFFFFFFFFFF ∧ s.length = 0x7FFFFFFFFFFFFFFF ∧ s.cfg.WellFormed) := by decide

theorem witness_PhaseLegalityTable :
    (pending 0).pend.valid = true ∧ decode (pending 0).pend.word = .illegal .opcode ∧ (pending 0).agenda = [] := by
  decide

theorem witness_completions_fail_and_succeed :
    after (completionStep (pending 2)) (·.err) = some .phaseError ∧
    after (completionStep (pending 0xF)) (·.err) = some .illegalCommand ∧
    after (completionStep (pending 5)) (·.err) = some .nullInput ∧
    after (completionStep { pending 5 with bufv := true, length := 1 }) (·.err) = some .invalidArgument ∧
    after (completionStep (pending 1)) (·.err) = some .none := by decide

theorem witness_CommandFrame :
    after (exec .block (inPhase .absorb)) (·.err) = some .none ∧
    after (exec (.tail 1) (inPhase .absorb)) (·.err) = some .none ∧
    after (exec .final (inPhase .tailed)) (·.err) = some .none ∧
    after (exec .hash p3State) (·.err) = some .none := by decide

theorem witness_TailIgnoresBytesBeyondItsLength :
    let s := { inPhase .absorb with blk := countingBlk }
    let B := setRegBytes countingBlk 14 2 0xffff
    (∀ j, j < 14 → regByte B j = regByte s.blk j) ∧ B ≠ s.blk ∧ after (exec (.tail 14) s) (·.err) = some .none := by
  decide

theorem witness_HashDependsOnSeedAndWindowOnly :
    let s := { p3State with length := 16 }
    let t := shiftedWindow
    s.bufv = true ∧ t.bufv = true ∧ s.WindowOk ∧ t.WindowOk ∧ s.seed = t.seed ∧ s.length = t.length ∧
    ∀ k, k < s.length.toNat → s.ibufByte (s.off.toNat + k) = t.ibufByte (t.off.toNat + k) := by decide

theorem witness_StreamedCommandsEqualHash :
    p3State.bufv = true ∧ p3State.WindowOk ∧ p3State.seed = State.reset.seed ∧
    shiftedWindow.WindowOk ∧ shiftedWindow.length.toNat % 16 = 0 := by decide

theorem witness_legal_reads :
    State.reset.cfg.WellFormed ∧
    LegalRead State.reset.cfg 0x50 8 ∧ LegalRead State.reset.cfg 0x7F 1 ∧ LegalRead State.reset.cfg 0x1FF8 8 ∧
    ¬ LegalRead State.reset.cfg 0x58 8 ∧ ¬ LegalRead State.reset.cfg 0x2000 1 := by
  refine ⟨?_, ?_, ?_, ?_, ?_, ?_⟩ <;> decide

theorem witness_legal_writes :
    LegalWrite State.reset.cfg 0x38 8 ∧ LegalWrite State.reset.cfg 0x6F 1 ∧ LegalWrite State.reset.cfg 0x1FFF 1 ∧
    ¬ LegalWrite State.reset.cfg 0x70 1 ∧ ¬ LegalWrite State.reset.cfg 0x1FFC 8 := by
  refine ⟨?_, ?_, ?_, ?_, ?_⟩ <;> decide

theorem witness_AnsweredAccessesLieInTheWindow :
    (busTxn (.read 0x1FF8 .b8) { State.reset with ibuf := Memory.write [] 0xFF8 5 8 }).2 ≠ .busErr := by decide

theorem witness_WritesTakeEffectUnlessBusy :
    (pending 1).pend.valid = true ∧ (0x1000 : Nat) ≠ 0x08 ∧ State.reset.pend.valid = false ∧
    LegalWrite State.reset.cfg 0x60 8 ∧ LegalWrite State.reset.cfg 0x1000 4 := by
  refine ⟨?_, ?_, ?_, ?_, ?_⟩ <;> decide

theorem witness_ReadValues : 15 < 16 ∧ 15 % Width.b1.bytes = 0 ∧ 8 % Width.b8.bytes = 0 := by decide

theorem witness_OverrunFlagLifeCycle :
    (let s := { State.reset with ovr := true, agenda := [.host (.write 0x08 .b8 2)] };
      s.ovr = true ∧ after (step s) (·.ovr) = some false) ∧
    (let s := { State.reset with ovr := true, agenda := [.reset] };
      s.ovr = true ∧ after (step s) (·.ovr) = some false) := by decide

theorem witness_IbufWriteThenRead :
    State.reset.pend.valid = false ∧ 4088 % Width.b8.bytes = 0 ∧ 4088 + Width.b8.bytes ≤ State.reset.cfg.ibufBytes ∧
    4095 % Width.b1.bytes = 0 ∧ 4095 + Width.b1.bytes ≤ State.reset.cfg.ibufBytes := by decide

theorem witness_DigestView :
    after (exec .final (inPhase .tailed)) (·.err) = some .none ∧
    (let s := { State.reset with
        h1 := 0xcbd8a7b341bd9b02, digest := pack (0xcbd8a7b341bd9b02, 0) };
      s.h1 = 0xcbd8a7b341bd9b02 ∧ s.digest = pack (s.h1, s.h2)) := by decide

theorem witness_pending_command_statements :
    (pending 1).pend.valid = true ∧ after (completionStep (pending 1)) (·.phase) = some .absorb ∧
    { pending 1 with agenda := [.host (.write 0x20 .b8 7)] }.agenda = [Txn.write 0x20 .b8 7].map Event.host := by decide

theorem witness_ResultsChangeOnlyAtCompletionOrReset :
    after (step (pending 1)) (·.phase) = some .absorb ∧ (pending 1).phase ≠ .absorb ∧
    after (step { inPhase .done with agenda := [.reset] }) (·.phase) = some .idle := by decide

theorem witness_OnlyFinalAndHashWriteDigest :
    after (step { inPhase .tailed with h1 := 1, pend := ⟨true, 4⟩ }) (fun t => decide (t.digest ≠ State.reset.digest)) =
      some true ∧
    after (step { State.reset with digest := countingBlk, agenda := [.reset] }) (·.digest) =
      some (Vector.replicate 16 0) ∧ countingBlk ≠ Vector.replicate 16 0 := by decide

theorem witness_EveryStepKeepsTheInvariant :
    State.Inv { inPhase .absorb with mlen := 16, ibuf := [(3, 7), (4095, 1)] } ∧
    after (step { inPhase .absorb with mlen := 16, ibuf := [(3, 7), (4095, 1)] }) (·.mlen) = some 16 :=
  ⟨⟨by decide, by decide, by decide, by decide, by decide, by decide⟩, by decide⟩

end Sys2Proof.Tests
end

/-! PROOFS of the statements on the scope (00_scope.md): the invariant, the rotation, the two byte orders, MMH3 and the
window on the bus. -/

namespace Sys2Proof.Machine

/-! ### The invariant of the block (O50) -/

section Invariant

variable {s t : State}

/-- The invariant speaks of seven fields only. -/
theorem State.Inv.congr (hs : s.Inv) (hibuf : t.ibuf = s.ibuf) (hcfg : t.cfg = s.cfg) (hphase : t.phase = s.phase)
    (hh1 : t.h1 = s.h1) (hh2 : t.h2 = s.h2) (hmlen : t.mlen = s.mlen) (hdigest : t.digest = s.digest) : t.Inv where
  ibufCanonical := by rw [hibuf]; exact hs.ibufCanonical
  ibufInside := by rw [hibuf, hcfg]; exact hs.ibufInside
  parameters := by rw [hcfg]; exact hs.parameters
  idleFresh := by rw [hphase, hh1, hh2, hmlen, hdigest]; exact hs.idleFresh
  absorbWholeBlocks := by rw [hphase, hmlen]; exact hs.absorbWholeBlocks
  doneDigest := by rw [hphase, hh1, hh2, hdigest]; exact hs.doneDigest

theorem State.Inv.complete (hs : s.Inv) (e : ErrCode) : (s.complete e).Inv :=
  hs.congr rfl rfl rfl rfl rfl rfl rfl

theorem State.Inv.setAgenda (hs : s.Inv) (l : List Event) : (s.setAgenda l).Inv :=
  hs.congr rfl rfl rfl rfl rfl rfl rfl

theorem State.Inv.respond (hs : s.Inv) (r : Response) : (s.respond r).Inv :=
  hs.congr rfl rfl rfl rfl rfl rfl rfl

theorem State.Inv.overrun (hs : s.Inv) : s.overrun.Inv :=
  hs.congr rfl rfl rfl rfl rfl rfl rfl

/-- RESET keeps the parameters and gives every other field of the invariant its IDLE value. -/
theorem State.Inv.resetStep (hs : s.Inv) : s.resetStep.Inv where
  ibufCanonical := List.Pairwise.nil
  ibufInside := by simp [State.reset]
  parameters := hs.parameters
  idleFresh := fun _ => ⟨rfl, rfl, rfl, rfl⟩
  absorbWholeBlocks := by simp [State.reset]
  doneDigest := by simp [State.reset]

/-- What a command's new values must meet for its success to keep the invariant; no command goes to IDLE. -/
theorem State.Inv.success (hs : s.Inv) {l : Word × Word} {m : Word} {D : Vector Byte 16} {p : Phase}
    (hidle : p ≠ .idle) (habsorb : p = .absorb → m.toNat % 16 = 0) (hdone : p = .done → D = pack l) :
    (((((s.setLanes l).setMlen m).setDigest D).setPhase p).complete .none).Inv where
  ibufCanonical := by simpa using hs.ibufCanonical
  ibufInside := by simpa using hs.ibufInside
  parameters := by simpa using hs.parameters
  idleFresh := fun h => absurd h hidle
  absorbWholeBlocks := by simpa using habsorb
  doneDigest := by simpa using hdone

/-- A block of 16 bytes keeps the length a multiple of 16, through the wrap at 2^64 as well. -/
theorem toNat_add_sixteen_mod {m : Word} (h : m.toNat % 16 = 0) : (m + 16).toNat % 16 = 0 := by
  rw [BitVec.toNat_add]
  simp only [BitVec.reduceToNat]
  omega

theorem State.Inv.exec {i : Instr} (hs : s.Inv) (h : exec i s = .next t) : t.Inv := by
  obtain ⟨e, -, rfl⟩ | ⟨l, m, p, D, rfl, hcase⟩ := exec_inv h
  · exact hs.complete e
  · obtain ⟨rfl, -, hm⟩ | ⟨rfl, -, -⟩ | ⟨rfl, hD, -⟩ := hcase
    · have hm16 : m.toNat % 16 = 0 := by
        obtain ⟨-, rfl⟩ | ⟨-, hphase, rfl⟩ := hm
        · rfl
        · exact toNat_add_sixteen_mod (hs.absorbWholeBlocks hphase)
      exact hs.success (by decide) (fun _ => hm16) (by simp)
    · exact hs.success (by decide) (by simp) (by simp)
    · exact hs.success (by decide) (by simp) (fun _ => hD)

theorem State.Inv.completionStep (hs : s.Inv) (h : completionStep s = .next t) : t.Inv := by
  obtain ⟨i, -, h⟩ | ⟨_, -, rfl⟩ := completionStep_inv h
  · exact hs.exec h
  · exact hs.complete _

theorem State.Inv.coreTurn (hs : s.Inv) (h : coreTurn s = .next t) : t.Inv := by
  obtain ⟨-, rfl⟩ | ⟨-, h⟩ := coreTurn_inv h
  · exact hs
  · exact hs.completionStep h

/-- A write to IBUF is inside IBUF, and recording it keeps the canonical form; other writes leave the record alone. -/
theorem State.Inv.writeRegion (hs : s.Inv) {a : Nat} {n : Width} {g : Region} (v : Word)
    (hg : regionOf s.cfg a n = some g) : (s.writeRegion n v g).Inv := by
  obtain hkept | ⟨j, rfl, hwritten⟩ := State.writeRegion_ibuf s n v g
  · exact hs.congr hkept (by simp) (by simp) (by simp) (by simp) (by simp) (by simp)
  · obtain ⟨-, hj⟩ := regionOf_ibuf hg
    exact
      { ibufCanonical := by rw [hwritten]; exact Memory.wf_write hs.ibufCanonical j v n.bytes
        ibufInside := fun c hc => by
          rw [hwritten] at hc
          rw [State.writeRegion_cfg]
          obtain ⟨-, hlt⟩ | hold := Memory.mem_write hc
          · exact Nat.lt_of_lt_of_le hlt hj
          · exact hs.ibufInside c hold
        parameters := hs.parameters
        idleFresh := hs.idleFresh
        absorbWholeBlocks := hs.absorbWholeBlocks
        doneDigest := hs.doneDigest }

theorem State.Inv.hostStep (hs : s.Inv) (x : Txn) : (hostStep x s).Inv := by
  refine State.Inv.respond ?_ _
  obtain h | ⟨-, h⟩ | ⟨a, n, v, g, -, hg, -, -, h⟩ := busTxn_inv x s
  · rw [h]; exact hs
  · rw [h]; exact hs.overrun
  · rw [h]; exact hs.writeRegion v hg

theorem State.Inv.step (hs : s.Inv) (h : step s = .next t) : t.Inv := by
  obtain ⟨-, h⟩ | ⟨l, -, h⟩ | ⟨x, l, -, rfl⟩ | ⟨l, -, rfl⟩ := step_inv h
  · exact hs.coreTurn h
  · exact (hs.setAgenda l).coreTurn h
  · exact (hs.setAgenda l).hostStep x
  · exact (hs.setAgenda l).resetStep

end Invariant

/-- Settles O50: each of the four kinds of step keeps the invariant. -/
theorem everyStepKeepsTheInvariant : Obligations.EveryStepKeepsTheInvariant :=
  fun _ _ hs h => hs.step h

/-! ### The rotation (O7) -/

/-- The left shift gives the bits from `r` on, the right shift those below `r`. -/
theorem getLsbD_rotl64 (x : Word) {r i : Nat} (hr : r ≤ 64) (hi : i < 64) :
    (rotl64 x r).getLsbD i = x.getLsbD ((i + 64 - r) % 64) := by
  rw [rotl64, BitVec.getLsbD_or, BitVec.getLsbD_shiftLeft, BitVec.getLsbD_ushiftRight]
  by_cases hir : i < r
  · have hsource : (i + 64 - r) % 64 = 64 - r + i := by omega
    simp [hir, hsource]
  · have hsource : (i + 64 - r) % 64 = i - r := by omega
    have hout : x.getLsbD (64 - r + i) = false := BitVec.getLsbD_of_ge x _ (by omega)
    simp [hir, hi, hsource, hout]

/-- Settles O7: `rotl64` is the formula by definition, and its bits are those of `getLsbD_rotl64`. -/
theorem rotationMovesEveryBit : Obligations.RotationMovesEveryBit := by
  refine ⟨fun x r hr => ⟨rfl, fun i hi => getLsbD_rotl64 x ?_ hi⟩, by decide⟩
  simp only [List.mem_cons, List.not_mem_nil, or_false] at hr
  omega

/-! ### The two byte orders (O8, O9) -/

theorem toNat_byteAt (v : Word) (i : Nat) : (byteAt v i).toNat = v.toNat / 2 ^ (8 * i) % 2 ^ 8 := by
  rw [byteAt, BitVec.extractLsb'_toNat, Nat.shiftRight_eq_div_pow]

/-- `n` bytes stay below `2^(8n)`. -/
theorem sum_bytes_lt (f : Nat → Byte) (n : Nat) :
    ∑ i ∈ Finset.range n, (f i).toNat * 2 ^ (8 * i) < 2 ^ (8 * n) := by
  induction n with
  | zero => simp
  | succ n ih =>
    have hlast : (f n).toNat * 2 ^ (8 * n) ≤ 255 * 2 ^ (8 * n) :=
      Nat.mul_le_mul_right _ (Nat.le_of_lt_succ (f n).isLt)
    rw [Finset.sum_range_succ, Nat.mul_succ, Nat.pow_add]
    omega

/-- Up to eight bytes fit a word, so their sum does not wrap. -/
theorem toNat_leBytes (f : Nat → Byte) {n : Nat} (hn : n ≤ 8) :
    (leBytes f n).toNat = ∑ i ∈ Finset.range n, (f i).toNat * 2 ^ (8 * i) := by
  induction n with
  | zero => rfl
  | succ n ih =>
    have hfit : 2 ^ (8 * (n + 1)) ≤ 2 ^ 64 := Nat.pow_le_pow_right (by omega) (by omega)
    have hsum := sum_bytes_lt f (n + 1)
    rw [Finset.sum_range_succ] at hsum ⊢
    have hbyte : (zext64 (f n) <<< (8 * n)).toNat = (f n).toNat * 2 ^ (8 * n) := by
      rw [zext64, BitVec.toNat_shiftLeft, BitVec.toNat_setWidth_of_le (by omega), Nat.shiftLeft_eq]
      exact Nat.mod_eq_of_lt (by omega)
    rw [leBytes, BitVec.toNat_add, ih (by omega), hbyte]
    exact Nat.mod_eq_of_lt (by omega)

theorem toNat_leBytes_lt (f : Nat → Byte) {n : Nat} (hn : n ≤ 8) : (leBytes f n).toNat < 2 ^ (8 * n) :=
  toNat_leBytes f hn ▸ sum_bytes_lt f n

theorem toNat_leBytes_succ (f : Nat → Byte) {n : Nat} (hn : n < 8) :
    (leBytes f (n + 1)).toNat = (leBytes f n).toNat + (f n).toNat * 2 ^ (8 * n) := by
  rw [toNat_leBytes f hn, toNat_leBytes f (Nat.le_of_lt hn), Finset.sum_range_succ]

/-- Byte `i` of the little-endian value is the byte it was made from: the bytes below it vanish in the division, the
bytes above it in the remainder. -/
theorem byteAt_leBytes (f : Nat → Byte) {n i : Nat} (hn : n ≤ 8) (hi : i < n) : byteAt (leBytes f n) i = f i := by
  induction n with
  | zero => omega
  | succ n ih =>
    apply BitVec.eq_of_toNat_eq
    rw [toNat_byteAt, toNat_leBytes_succ f hn]
    rcases Nat.lt_succ_iff_lt_or_eq.1 hi with hlt | rfl
    · have habove : (f n).toNat * 2 ^ (8 * n) = (f n).toNat * 2 ^ (8 * (n - i - 1)) * 2 ^ 8 * 2 ^ (8 * i) := by
        rw [Nat.mul_assoc, Nat.mul_assoc, ← Nat.pow_add, ← Nat.pow_add]
        congr 2
        omega
      rw [habove, Nat.add_mul_div_right _ _ (by positivity), Nat.add_mul_mod_self_right, ← toNat_byteAt,
        ih (by omega) hlt]
    · rw [Nat.add_mul_div_right _ _ (by positivity), Nat.div_eq_of_lt (toNat_leBytes_lt f (by omega)), Nat.zero_add]
      exact Nat.mod_eq_of_lt (f i).isLt

theorem byteAt_le64 (A : Nat → Byte) (j : Nat) {i : Nat} (hi : i < 8) : byteAt (le64 A j) i = A (j + i) :=
  byteAt_leBytes _ (Nat.le_refl 8) hi

theorem byteAt_bswap64 (x : Word) {j : Nat} (hj : j < 8) : byteAt (bswap64 x) j = byteAt x (7 - j) :=
  byteAt_leBytes _ (Nat.le_refl 8) hj

theorem getLsbD_byteAt (x : Word) (i : Nat) {k : Nat} (hk : k < 8) :
    (byteAt x i).getLsbD k = x.getLsbD (8 * i + k) := by
  simp [byteAt, hk]

/-- Words with the same eight bytes are equal. -/
theorem word_ext_byteAt {x y : Word} (h : ∀ j, j < 8 → byteAt x j = byteAt y j) : x = y := by
  refine BitVec.eq_of_getLsbD_eq fun i hi => ?_
  have hbit := congrArg (·.getLsbD (i % 8)) (h (i / 8) (by omega))
  simpa only [getLsbD_byteAt _ _ (Nat.mod_lt i (by decide : 0 < 8)), Nat.div_add_mod] using hbit

theorem bswap64_bswap64 (x : Word) : bswap64 (bswap64 x) = x := by
  refine word_ext_byteAt fun j hj => ?_
  rw [byteAt_bswap64 _ hj, byteAt_bswap64 _ (by omega)]
  congr 1
  omega

/-- Settles O8. -/
theorem littleEndianDecode : Obligations.LittleEndianDecode :=
  ⟨fun A j => ⟨toNat_leBytes _ (Nat.le_refl 8), fun _ hi => byteAt_le64 A j hi⟩, by decide⟩

/-- Settles O9. -/
theorem byteSwapReversesBytes : Obligations.ByteSwapReversesBytes :=
  fun x => ⟨fun _ hj => byteAt_bswap64 x hj, bswap64_bswap64 x⟩

/-! ### MMH3 (O17) -/

/-- The model's recursion on the number of blocks is the rule's loop over the block index. -/
theorem absorbBlocks_eq_foldl (seed : Word) (A : Nat → Byte) (nblocks : Nat) :
    absorbBlocks seed A nblocks =
      (List.range nblocks).foldl (fun h b => blockMix h (le64 A (16 * b)) (le64 A (16 * b + 8))) (seed, seed) := by
  induction nblocks with
  | zero => rfl
  | succ b ih => rw [absorbBlocks, ih, List.range_succ, List.foldl_append, List.foldl_cons, List.foldl_nil]

/-- Settles O17: the blocks are `absorbBlocks_eq_foldl`, and the tail's array is the message from its first byte on. -/
theorem hashFunctionIsTheLoopOfTheRule : Obligations.HashFunctionIsTheLoopOfTheRule := by
  intro s M
  refine ⟨?_, rfl⟩
  have htail : arrayOf (M.drop (16 * (M.length / 16))) = fun i => arrayOf M (16 * (M.length / 16) + i) :=
    funext (arrayOf_drop M _)
  rw [mmh3, absorbBlocks_eq_foldl, htail]

/-! ### The window on the bus (O34) -/

theorem Width.bytes_le_eight (n : Width) : n.bytes ≤ 8 := by cases n <;> decide

/-- Every access with a region ends inside the window: the registers end below 0x1000, IBUF is checked to its end. -/
theorem regionOf_inside {c : Config} {a : Nat} {n : Width} {g : Region} (h : regionOf c a n = some g) :
    a + n.bytes ≤ 0x1000 + c.ibufBytes := by
  by_cases hregs : a < 0x80
  · have := n.bytes_le_eight
    omega
  · by_cases hbuf : 0x1000 ≤ a ∧ a + n.bytes ≤ 0x1000 + c.ibufBytes
    · exact hbuf.2
    · have h60 : ¬ a < 0x60 := by omega
      have h70 : ¬ a < 0x70 := by omega
      simp [regionOf, h60, h70, hregs, hbuf] at h

/-- A transaction answered without BUSERR addresses a region. -/
theorem regionOf_of_answered {x : Txn} {a : Nat} {n : Width} {s : State} (h : (busTxn x s).2 ≠ .busErr)
    (hx : x = .read a n ∨ ∃ v, x = .write a n v) : ∃ g, regionOf s.cfg a n = some g := by
  obtain rfl | ⟨v, rfl⟩ := hx
  · cases hg : regionOf s.cfg a n with
    | none => simp [busTxn, busRead, hg] at h
    | some g => exact ⟨g, rfl⟩
  · obtain ⟨-, herr⟩ | ⟨g, hg, -⟩ := busWrite_inv (s := s) (a := a) (n := n) (v := v) rfl
    · exact absurd herr h
    · exact ⟨g, hg⟩

/-- Settles O34: the access ends inside the window, and the window inside the bus (00_scope.md R3). -/
theorem answeredAccessesLieInTheWindow : Obligations.AnsweredAccessesLieInTheWindow := by
  intro s x a n hcfg hanswer hx
  obtain ⟨g, hg⟩ := regionOf_of_answered hanswer hx
  have hinside := regionOf_inside hg
  obtain ⟨-, -, -, hbus⟩ := hcfg
  omega

end Sys2Proof.Machine

/-! PROOFS of the statements on the state (10_state.md): the kinds of step, the frame of the commands, what reads return,
STATUS, OVR, the pending command, the result registers and PEND.word. -/

namespace Sys2Proof.Machine

variable {s t : State}

/-! ### The four kinds of step (O1, O2, O3) -/

theorem step_nil (h : s.agenda = []) : step s = coreTurn s := by
  rw [step, h]

theorem step_core {l : List Event} (h : s.agenda = .core :: l) : step s = coreTurn (s.setAgenda l) := by
  rw [step, h]

theorem step_host {x : Txn} {l : List Event} (h : s.agenda = .host x :: l) :
    step s = .next (hostStep x (s.setAgenda l)) := by
  rw [step, h]

theorem step_reset {l : List Event} (h : s.agenda = .reset :: l) : step s = .next (s.setAgenda l).resetStep := by
  rw [step, h]

theorem coreTurn_idle (h : s.pend.valid = false) : coreTurn s = .next s :=
  if_neg (by simp [State.busy, h])

theorem coreTurn_pending (h : s.pend.valid = true) : coreTurn s = completionStep s :=
  if_pos h

theorem completionStep_command {i : Instr} (h : decode s.pend.word = .command i) : completionStep s = exec i s := by
  rw [completionStep, h]

theorem completionStep_illegal {why : Illegal} (h : decode s.pend.word = .illegal why) :
    completionStep s = raise .illegalCommand s := by
  rw [completionStep, h]

theorem coreTurn_command {i : Instr} (hv : s.pend.valid = true) (hi : decode s.pend.word = .command i) :
    coreTurn s = exec i s :=
  (coreTurn_pending hv).trans (completionStep_command hi)

/-- Settles O1: both turns are the CORE's, and with a command pending the CORE completes it. -/
theorem stepRunsThePendingCommand : Obligations.StepRunsThePendingCommand := by
  intro s l i hv hi
  refine ⟨fun h => ?_, fun h => ?_⟩
  · rw [step_nil h, coreTurn_command hv hi]
  · rw [step_core h]
    exact coreTurn_command hv hi

/-- A transaction does not touch the record of responses; the HOST's step adds its answer after it. -/
theorem busTxn_responses (x : Txn) (s : State) : (busTxn x s).1.responses = s.responses := by
  obtain h | ⟨-, h⟩ | ⟨_, _, _, _, -, -, -, -, h⟩ := busTxn_inv x s <;> simp [h]

/-- Settles O2. -/
theorem otherStepsAreHostResetOrIdle : Obligations.OtherStepsAreHostResetOrIdle := by
  intro s l x
  refine ⟨fun h => ?_, step_reset, fun h hv => ?_, fun h hv => ?_⟩
  · rw [step_host h, hostStep, State.respond, busTxn_responses]
    rfl
  · rw [step_core h]
    exact coreTurn_idle hv
  · rw [step_nil h, coreTurn_idle hv]

/-- Every command that has an encoding is what its canonical word decodes to. -/
theorem decode_encode {i : Instr} (h : i.wellFormed = true) : decode (encode i) = .command i := by
  cases i with
  | init => exact Laws.Codec.init h
  | block => exact Laws.Codec.block h
  | tail n => exact Laws.Codec.tail n h
  | final => exact Laws.Codec.final h
  | hash => exact Laws.Codec.hash h

/-- A write that is neither a BUSERR nor dropped. -/
theorem busTxn_write_effect {a : Nat} {n : Width} {g : Region} (v : Word) (hg : regionOf s.cfg a n = some g)
    (hw : g.writable = true) (hb : s.pend.valid = false ∨ g = .status) :
    busTxn (.write a n v) s = (s.writeRegion n v g, .ok) := by
  have hkept : ¬ (s.busy = true ∧ g ≠ .status) := by
    obtain h | h := hb <;> simp [State.busy, h]
  simp only [busTxn, busWrite, hg, hw, if_neg hkept, Bool.true_eq_false, if_false]

/-- A write to CMD of an idle block issues the word (10_state.md R43). -/
theorem busTxn_write_cmd (v : Word) (h : s.pend.valid = false) :
    busTxn (.write 0x00 .b8 v) s = ({ s with pend := ⟨true, v⟩ }, .ok) :=
  busTxn_write_effect (g := .cmd) v rfl rfl (.inl h)

/-- Settles O3: the write issues the word, and the CORE's turn runs the command the word decodes to. -/
theorem issuedCommandRunsAtCompletion : Obligations.IssuedCommandRunsAtCompletion := by
  intro s i l hi hv ha
  refine ⟨_, ?_, rfl, ?_⟩
  · rw [step_host ha, hostStep, busTxn_write_cmd (s := s.setAgenda (.core :: l)) _ hv]
    rfl
  · rw [step_core rfl]
    exact coreTurn_command rfl (decode_encode hi)

/-! ### The frame of the commands (O28) -/

/-- The registers and fields that no command writes. -/
theorem exec_keeps_operands {i : Instr} (h : exec i s = .next t) :
    t.seed = s.seed ∧ t.bufv = s.bufv ∧ t.off = s.off ∧ t.length = s.length ∧ t.buflen = s.buflen ∧
    t.blk = s.blk ∧ t.ibuf = s.ibuf ∧ t.ovr = s.ovr ∧ t.cfg = s.cfg ∧ t.epoch = s.epoch ∧ t.agenda = s.agenda ∧
    t.responses = s.responses := by
  obtain ⟨e, -, rfl⟩ | ⟨l, m, p, D, rfl, -⟩ := exec_inv h <;> simp

theorem exec_ovr {i : Instr} (h : exec i s = .next t) : t.ovr = s.ovr := by
  obtain ⟨-, -, -, -, -, -, -, hovr, -⟩ := exec_keeps_operands h
  exact hovr

theorem exec_pend {i : Instr} (h : exec i s = .next t) : t.pend = ⟨false, s.pend.word⟩ := by
  obtain ⟨e, -, rfl⟩ | ⟨l, m, p, D, rfl, -⟩ := exec_inv h <;> simp

theorem exec_digest {i : Instr} (hfinal : i ≠ .final) (hhash : i ≠ .hash) (h : exec i s = .next t) :
    t.digest = s.digest := by
  obtain ⟨e, -, rfl⟩ | ⟨l, m, p, D, rfl, ⟨-, hD, -⟩ | ⟨-, hD, -⟩ | ⟨-, -, hi⟩⟩ := exec_inv h
  · simp
  · simpa using hD
  · simpa using hD
  · simp [hfinal, hhash] at hi

theorem exec_final_mlen (h : exec .final s = .next t) : t.mlen = s.mlen := by
  obtain ⟨-, rfl⟩ | ⟨-, rfl⟩ := execFinal_inv h <;> simp

/-- BLOCK succeeds in ABSORB only and stays there. -/
theorem exec_block_phase (h : exec .block s = .next t) : t.phase = s.phase := by
  obtain ⟨-, rfl⟩ | ⟨-, rfl⟩ := execBlock_inv h <;> simp

/-- Settles O28. -/
theorem commandFrame : Obligations.CommandFrame := by
  intro i s t h
  obtain ⟨hseed, hbufv, hoff, hlength, hbuflen, hblk, hibuf, hovr, hcfg, hepoch, hagenda, hresponses⟩ :=
    exec_keeps_operands h
  exact ⟨hseed, hbufv, hoff, hlength, hbuflen, hblk, hibuf, State.ibufByte_congr hibuf hepoch, hovr, exec_pend h, hcfg,
    hepoch, hagenda, hresponses, fun hfinal hhash => exec_digest hfinal hhash h,
    fun hi => exec_final_mlen (hi ▸ h), fun hi => exec_block_phase (hi ▸ h)⟩

/-! ### What a read returns (O37) -/

theorem busTxn_read {a : Nat} {n : Width} {g : Region} (hg : regionOf s.cfg a n = some g) :
    busTxn (.read a n) s = (s, .data (s.readRegion n g)) := by
  simp only [busTxn, busRead, hg]

theorem State.ctrlWord_eq (s : State) : s.ctrlWord = if s.bufv = true then 1 else 0 := by
  rw [State.ctrlWord]
  cases s.bufv <;> decide

theorem regionOf_blk (c : Config) {j : Nat} {n : Width} (hj : j < 16) (ha : j % n.bytes = 0) :
    regionOf c (0x60 + j) n = some (.blk j) := by
  have haligned : (0x60 + j) % n.bytes = 0 := by cases n <;> simp only [Width.bytes] at ha ⊢ <;> omega
  have h70 : 0x60 + j < 0x70 := by omega
  simp [regionOf, haligned, h70]

theorem regionOf_digest (c : Config) {j : Nat} {n : Width} (hj : j < 16) (ha : j % n.bytes = 0) :
    regionOf c (0x70 + j) n = some (.digest j) := by
  have haligned : (0x70 + j) % n.bytes = 0 := by cases n <;> simp only [Width.bytes] at ha ⊢ <;> omega
  have h60 : ¬ 0x70 + j < 0x60 := by omega
  have h80 : 0x70 + j < 0x80 := by omega
  simp [regionOf, haligned, h60, h80]

/-- Settles O37: the registers are read whole, BLK and DIGEST as the little-endian value of the bytes addressed. -/
theorem readValues : Obligations.ReadValues := by
  intro s j n
  refine ⟨?_, busTxn_read (g := .hashSize) rfl, busTxn_read (g := .seed) rfl, busTxn_read (g := .off) rfl,
    busTxn_read (g := .length) rfl, busTxn_read (g := .buflen) rfl, busTxn_read (g := .h1) rfl,
    busTxn_read (g := .h2) rfl, busTxn_read (g := .mlen) rfl, fun hj ha => ⟨?_, ?_⟩⟩
  · rw [← State.ctrlWord_eq]
    exact busTxn_read (g := .ctrl) rfl
  · exact ⟨_, busTxn_read (regionOf_blk s.cfg hj ha), toNat_leBytes _ n.bytes_le_eight⟩
  · exact ⟨_, busTxn_read (regionOf_digest s.cfg hj ha), toNat_leBytes _ n.bytes_le_eight⟩

/-! ### STATUS (O38) -/

theorem State.statusWord_busy (s : State) : s.statusWord.getLsbD 0 = s.busy := by
  rw [State.statusWord]
  refine BitVec.getLsbD_append.trans ?_
  simp

theorem State.statusWord_ovr (s : State) : s.statusWord.getLsbD 1 = s.ovr := by
  rw [State.statusWord]
  refine BitVec.getLsbD_append.trans ?_
  rw [if_neg (by decide), BitVec.getLsbD_append]
  simp

theorem State.statusWord_phase (s : State) : s.statusWord.extractLsb' 2 2 = s.phase.code := by
  rw [State.statusWord]
  refine (BitVec.extractLsb'_append_eq_of_le (by decide)).trans ?_
  rw [BitVec.extractLsb'_append_eq_of_le (by decide)]
  exact BitVec.extractLsb'_append_eq_right

theorem State.statusWord_err (s : State) : s.statusWord.extractLsb' 4 4 = s.err.code := by
  rw [State.statusWord]
  refine (BitVec.extractLsb'_append_eq_of_le (by decide)).trans ?_
  rw [BitVec.extractLsb'_append_eq_of_le (by decide), BitVec.extractLsb'_append_eq_of_le (by decide)]
  exact BitVec.extractLsb'_append_eq_right

theorem State.statusWord_zeros (s : State) : s.statusWord.extractLsb' 8 56 = 0 := by
  rw [State.statusWord]
  refine (BitVec.extractLsb'_append_eq_of_le (by decide)).trans ?_
  rw [BitVec.extractLsb'_append_eq_of_le (by decide), BitVec.extractLsb'_append_eq_of_le (by decide),
    BitVec.extractLsb'_append_eq_of_le (by decide)]
  exact BitVec.extractLsb'_eq_self

theorem busTxn_read_status (s : State) : busTxn (.read 0x08 .b8) s = (s, .data s.statusWord) :=
  busTxn_read (g := .status) rfl

/-- Busy or not, a write to STATUS takes effect (20_memory.md R69). -/
theorem busTxn_write_status (s : State) (v : Word) :
    busTxn (.write 0x08 .b8 v) s = ({ s with ovr := ovrAfterStatusWrite s.ovr v }, .ok) :=
  busTxn_write_effect (g := .status) v rfl rfl (.inr rfl)

theorem ovrAfterStatusWrite_eq (o : Bool) (v : Word) :
    ovrAfterStatusWrite o v = if v.getLsbD 1 = true then false else o := by
  rw [ovrAfterStatusWrite]
  cases v.getLsbD 1 <;> simp

/-- The codes end at 4 (60_exceptions.md R220). -/
theorem ErrCode.code_le_four (e : ErrCode) : e.code.toNat ≤ 4 := by
  cases e <;> decide

/-- Settles O38. -/
theorem statusFields : Obligations.StatusFields := by
  refine ⟨fun s => ⟨_, busTxn_read_status s, s.statusWord_busy, s.statusWord_ovr, s.statusWord_phase, s.statusWord_err,
    s.statusWord_err ▸ s.err.code_le_four, s.statusWord_zeros⟩, fun s v => ?_, busTxn_read_status State.reset⟩
  rw [busTxn_write_status, ovrAfterStatusWrite_eq]
  refine ⟨rfl, ?_⟩
  by_cases hbit : v.getLsbD 1 = true
  · rw [if_pos hbit]
    exact .inr rfl
  · rw [if_neg hbit]
    exact .inl rfl

/-! ### OVR (O39) -/

theorem regionOf_ibuf_inside {c : Config} {j : Nat} {n : Width} (ha : (0x1000 + j) % n.bytes = 0)
    (hj : j + n.bytes ≤ c.ibufBytes) : regionOf c (0x1000 + j) n = some (.ibuf j) := by
  have h60 : ¬ 0x1000 + j < 0x60 := by omega
  have h70 : ¬ 0x1000 + j < 0x70 := by omega
  have h80 : ¬ 0x1000 + j < 0x80 := by omega
  have hbuf : 0x1000 + j + n.bytes ≤ 0x1000 + c.ibufBytes := by omega
  simp [regionOf, ha, h60, h70, h80, hbuf]

/-- An aligned access that begins in IBUF ends in it, as IBUF_BYTES is a multiple of 8. -/
theorem aligned_inside {c : Config} {a : Nat} {n : Width} (hc : c.WellFormed) (ha : a % n.bytes = 0)
    (hlt : a < 0x1000 + c.ibufBytes) : a + n.bytes ≤ 0x1000 + c.ibufBytes := by
  obtain ⟨hmul, -, -, -⟩ := hc
  cases n <;> simp only [Width.bytes] at ha ⊢ <;> omega

/-- A legal write addresses a writable region, which is STATUS at offset 8 only. -/
theorem regionOf_of_legalWrite {c : Config} {a : Nat} {n : Width} (hc : c.WellFormed) (h : LegalWrite c a n.bytes) :
    ∃ g, regionOf c a n = some g ∧ g.writable = true ∧ (g = .status → a = 0x08) := by
  obtain ⟨hn, ha⟩ | ⟨-, hal, ⟨hlo, hhi⟩ | ⟨hlo, hlt⟩⟩ := h
  · have hn8 : n = .b8 := by cases n <;> simp [Width.bytes] at hn ⊢
    subst hn8
    simp only [List.mem_cons, List.not_mem_nil, or_false] at ha
    rcases ha with rfl | rfl | rfl | rfl | rfl | rfl | rfl <;> exact ⟨_, rfl, rfl, by decide⟩
  · obtain ⟨j, rfl⟩ := Nat.exists_eq_add_of_le hlo
    have hal : j % n.bytes = 0 := by cases n <;> simp only [Width.bytes] at hal ⊢ <;> omega
    exact ⟨_, regionOf_blk c (by omega) hal, rfl, nofun⟩
  · have hin := aligned_inside hc hal hlt
    obtain ⟨j, rfl⟩ := Nat.exists_eq_add_of_le hlo
    exact ⟨_, regionOf_ibuf_inside hal (by omega), rfl, nofun⟩

/-- STATUS is reached at offset 8 with 8 bytes only. -/
theorem regionOf_status {c : Config} {a : Nat} {n : Width} (h : regionOf c a n = some .status) :
    a = 0x08 ∧ n = .b8 := by
  by_cases hlow : a < 0x60
  · by_cases hn : n = .b8
    · refine ⟨?_, hn⟩
      rw [regionOf, if_pos hlow, if_pos hn] at h
      unfold registerAt at h
      split at h <;> simp at h ⊢
    · simp [regionOf, hlow, hn] at h
  · rw [regionOf, if_neg hlow] at h
    split_ifs at h <;> simp at h

/-- A legal write to a busy block, but for STATUS, is dropped (20_memory.md R69). -/
theorem busTxn_write_dropped {a : Nat} {n : Width} {g : Region} (v : Word) (hg : regionOf s.cfg a n = some g)
    (hw : g.writable = true) (hb : s.pend.valid = true) (hne : g ≠ .status) :
    busTxn (.write a n v) s = (s.overrun, .ok) := by
  have hdrop : s.busy = true ∧ g ≠ .status := ⟨hb, hne⟩
  simp only [busTxn, busWrite, hg, hw, if_pos hdrop, Bool.true_eq_false, if_false]

theorem State.writeRegion_ovr (s : State) (n : Width) (v : Word) {g : Region} (hg : g ≠ .status) :
    (s.writeRegion n v g).ovr = s.ovr := by
  cases g with
  | status => exact absurd rfl hg
  | _ => rfl

/-- The HOST clears OVR by a write to STATUS with bit 1 set, and by nothing else. -/
theorem hostStep_clears_ovr {x : Txn} (hs : s.ovr = true) (h : (hostStep x s).ovr = false) :
    ∃ v, x = .write 0x08 .b8 v ∧ v.getLsbD 1 = true := by
  rw [hostStep, State.respond_ovr] at h
  obtain hx | ⟨-, hx⟩ | ⟨a, n, v, g, rfl, hg, -, -, hx⟩ := busTxn_inv x s <;> rw [hx] at h
  · simp [hs] at h
  · simp at h
  · by_cases hstatus : g = .status
    · subst hstatus
      obtain ⟨rfl, rfl⟩ := regionOf_status hg
      refine ⟨v, rfl, ?_⟩
      simpa [State.writeRegion, ovrAfterStatusWrite, hs] using h
    · simp [State.writeRegion_ovr s n v hstatus, hs] at h

theorem completionStep_ovr (h : completionStep s = .next t) : t.ovr = s.ovr := by
  obtain ⟨i, -, h⟩ | ⟨_, -, rfl⟩ := completionStep_inv h
  · exact exec_ovr h
  · simp

theorem coreTurn_ovr (h : coreTurn s = .next t) : t.ovr = s.ovr := by
  obtain ⟨-, rfl⟩ | ⟨-, h⟩ := coreTurn_inv h
  · rfl
  · exact completionStep_ovr h

/-- The steps that clear OVR. -/
theorem step_clears_ovr (h : step s = .next t) (hs : s.ovr = true) (ht : t.ovr = false) :
    (∃ l, s.agenda = .reset :: l) ∨
      ∃ v l, s.agenda = .host (.write 0x08 .b8 v) :: l ∧ v.getLsbD 1 = true := by
  obtain ⟨-, h⟩ | ⟨l, -, h⟩ | ⟨x, l, ha, rfl⟩ | ⟨l, ha, -⟩ := step_inv h
  · simp [coreTurn_ovr h, hs] at ht
  · simp [coreTurn_ovr h, hs] at ht
  · obtain ⟨v, rfl, hv⟩ := hostStep_clears_ovr (s := s.setAgenda l) hs ht
    exact .inr ⟨v, l, ha, hv⟩
  · exact .inl ⟨l, ha⟩

/-- Settles O39. -/
theorem overrunFlagLifeCycle : Obligations.OverrunFlagLifeCycle := by
  refine ⟨fun s a n v hc hb hlegal ha => ?_, fun s v => ?_, fun _ _ _ => exec_ovr, fun _ _ => step_clears_ovr, rfl⟩
  · obtain ⟨g, hg, hw, hstatus⟩ := regionOf_of_legalWrite hc hlegal
    rw [busTxn_write_dropped v hg hw hb fun h => ha (hstatus h), State.overrun_ovr]
  · rw [busTxn_write_status, ovrAfterStatusWrite_eq]

/-! ### The pending command and its operands (O43) -/

/-- All that HOST transactions can change while a command is pending. -/
def State.setOvrResponses (s : State) (o : Bool) (rs : List Response) : State := { s with ovr := o, responses := rs }

/-- A transaction while a command is pending is a BUSERR, a read, a dropped write or a write to STATUS. -/
theorem hostStep_pending (x : Txn) (hb : s.pend.valid = true) : ∃ o rs, hostStep x s = s.setOvrResponses o rs := by
  obtain h | ⟨-, h⟩ | ⟨a, n, v, g, -, -, -, hv | rfl, h⟩ := busTxn_inv x s
  · exact ⟨s.ovr, _, by rw [hostStep, h]; rfl⟩
  · exact ⟨true, _, by rw [hostStep, h]; rfl⟩
  · simp [hb] at hv
  · exact ⟨ovrAfterStatusWrite s.ovr v, _, by rw [hostStep, h]; rfl⟩

theorem foldl_hostStep_pending (xs : List Txn) (hb : s.pend.valid = true) :
    ∃ o rs, xs.foldl (fun s x => hostStep x s) s = s.setOvrResponses o rs := by
  induction xs generalizing s with
  | nil => exact ⟨s.ovr, s.responses, rfl⟩
  | cons x xs ih =>
    obtain ⟨_, _, hx⟩ := hostStep_pending x hb
    obtain ⟨o, rs, hxs⟩ := ih (s := hostStep x s) (by rw [hx]; exact hb)
    refine ⟨o, rs, ?_⟩
    rw [List.foldl_cons, hxs, hx]
    rfl

/-- A command reads neither OVR nor the responses, and carries both through. -/
theorem exec_setOvrResponses {i : Instr} (h : exec i s = .next t) (o : Bool) (rs : List Response) :
    exec i (s.setOvrResponses o rs) = .next (t.setOvrResponses o rs) := by
  cases i with
  | init =>
    obtain rfl := execInit_inv h
    rfl
  | block =>
    obtain ⟨hp, rfl⟩ | ⟨hp, rfl⟩ := execBlock_inv h
    · exact if_pos hp
    · exact if_neg hp
  | tail n =>
    obtain ⟨hp, rfl⟩ | ⟨hp, rfl⟩ := execTail_inv h
    · exact if_pos hp
    · exact if_neg hp
  | final =>
    obtain ⟨hp, rfl⟩ | ⟨hp, rfl⟩ := execFinal_inv h <;> rw [← finalLegal_iff] at hp
    · exact if_pos hp
    · exact if_neg hp
  | hash =>
    refine (execHash_eq _).trans ?_
    obtain ⟨hb, rfl⟩ | ⟨hb, hw, rfl⟩ | ⟨hb, hw, rfl⟩ := execHash_inv h
    · exact if_pos hb
    · exact (if_neg (ne_false_of_eq_true hb)).trans (if_neg hw)
    · exact (if_neg (ne_false_of_eq_true hb)).trans (if_pos hw)

theorem completionStep_setOvrResponses (h : completionStep s = .next t) (o : Bool) (rs : List Response) :
    completionStep (s.setOvrResponses o rs) = .next (t.setOvrResponses o rs) := by
  obtain ⟨i, hi, h⟩ | ⟨why, hwhy, rfl⟩ := completionStep_inv h
  · rw [completionStep_command (s := s.setOvrResponses o rs) hi]
    exact exec_setOvrResponses h o rs
  · exact completionStep_illegal (s := s.setOvrResponses o rs) hwhy

/-- Settles O43: the transactions leave `s` but for OVR and the responses, which the completion carries through. -/
theorem pendingCommandKeepsItsOperands : Obligations.PendingCommandKeepsItsOperands := by
  intro s xs hb u
  obtain ⟨o, rs, hu⟩ : ∃ o rs, u = s.setOvrResponses o rs := foldl_hostStep_pending xs hb
  rw [hu]
  exact ⟨rfl, rfl, rfl, rfl, rfl, rfl, rfl, rfl, fun t h => completionStep_setOvrResponses h o rs⟩

/-! ### The result registers (O45) -/

/-- What a command leaves for the HOST: PHASE, ERR, H1, H2, MLEN and DIGEST (10_state.md R40). -/
def State.results (s : State) : Phase × ErrCode × Word × Word × Word × Vector Byte 16 :=
  (s.phase, s.err, s.h1, s.h2, s.mlen, s.digest)

/-- No transaction changes a result register. -/
theorem hostStep_results (x : Txn) (s : State) : (hostStep x s).results = s.results := by
  obtain h | ⟨-, h⟩ | ⟨_, _, _, _, -, -, -, -, h⟩ := busTxn_inv x s <;> simp [State.results, hostStep, h]

theorem completionStep_pend (h : completionStep s = .next t) : t.pend = ⟨false, s.pend.word⟩ := by
  obtain ⟨i, -, h⟩ | ⟨_, -, rfl⟩ := completionStep_inv h
  · exact exec_pend h
  · simp

/-- The CORE's turn leaves the results as they are, or it completes the pending command. -/
theorem coreTurn_results (h : coreTurn s = .next t) :
    t.results = s.results ∨ (s.pend.valid = true ∧ t.pend.valid = false) := by
  obtain ⟨-, rfl⟩ | ⟨hv, h⟩ := coreTurn_inv h
  · exact .inl rfl
  · exact .inr ⟨hv, by rw [completionStep_pend h]⟩

theorem step_results (h : step s = .next t) :
    t.results = s.results ∨ (∃ l, s.agenda = .reset :: l) ∨
      (s.pend.valid = true ∧ t.pend.valid = false ∧ (s.agenda = [] ∨ ∃ l, s.agenda = .core :: l)) := by
  obtain ⟨ha, h⟩ | ⟨l, ha, h⟩ | ⟨x, l, -, rfl⟩ | ⟨l, ha, -⟩ := step_inv h
  · exact (coreTurn_results h).imp id fun ⟨hs, ht⟩ => .inr ⟨hs, ht, .inl ha⟩
  · exact (coreTurn_results h).imp id fun ⟨hs, ht⟩ => .inr ⟨hs, ht, .inr ⟨l, ha⟩⟩
  · exact .inl (hostStep_results x _)
  · exact .inr (.inl ⟨l, ha⟩)

/-- Settles O45. -/
theorem resultsChangeOnlyAtCompletionOrReset : Obligations.ResultsChangeOnlyAtCompletionOrReset := by
  intro s t h hchange
  obtain hsame | hcause := step_results h
  · simp only [State.results, Prod.mk.injEq] at hsame
    obtain ⟨hphase, herr, hh1, hh2, hmlen, hdigest⟩ := hsame
    simp [hphase, herr, hh1, hh2, hmlen, hdigest] at hchange
  · exact hcause

/-! ### The word of an idle block (O49) -/

/-- An idle block with another word in PEND. -/
def State.setIdleWord (s : State) (w : Word) : State := { s with pend := ⟨false, w⟩ }

@[simp] theorem State.setIdleWord_cfg (s : State) (w : Word) : (s.setIdleWord w).cfg = s.cfg := rfl
@[simp] theorem State.setIdleWord_agenda (s : State) (w : Word) : (s.setIdleWord w).agenda = s.agenda := rfl

/-- `u` is `t` but for PEND.word, and for that only while no command is pending. -/
def State.EqUpToIdleWord (t u : State) : Prop :=
  u = { t with pend := u.pend } ∧ u.pend.valid = t.pend.valid ∧ (t.pend.valid = true → u.pend = t.pend)

theorem State.EqUpToIdleWord.refl (s : State) : s.EqUpToIdleWord s :=
  ⟨rfl, rfl, fun _ => rfl⟩

theorem State.EqUpToIdleWord.of_idle (w : Word) (h : s.pend.valid = false) : s.EqUpToIdleWord (s.setIdleWord w) :=
  ⟨rfl, h.symm, by simp [h]⟩

theorem State.EqUpToIdleWord.respond {u : State} (h : t.EqUpToIdleWord u) (r : Response) :
    (t.respond r).EqUpToIdleWord (u.respond r) := by
  obtain ⟨heq, hvalid, hpend⟩ := h
  refine ⟨?_, hvalid, hpend⟩
  rw [heq]
  rfl

/-- A write to CMD overwrites the word; every other write leaves PEND alone. -/
theorem State.EqUpToIdleWord.writeRegion (w : Word) (h : s.pend.valid = false) (n : Width) (v : Word) (g : Region) :
    (s.writeRegion n v g).EqUpToIdleWord ((s.setIdleWord w).writeRegion n v g) := by
  cases g with
  | cmd => exact .refl _
  | _ => exact .of_idle w h

/-- Of PEND a read sees the valid bit alone, in STATUS. -/
theorem State.readRegion_setIdleWord (w : Word) (h : s.pend.valid = false) (n : Width) (g : Region) :
    (s.setIdleWord w).readRegion n g = s.readRegion n g := by
  cases g with
  | status =>
    have hbusy : (s.setIdleWord w).busy = s.busy := h.symm
    rw [State.readRegion, State.readRegion, State.statusWord, State.statusWord, hbusy]
    rfl
  | _ => rfl

theorem busRead_setIdleWord (w : Word) (h : s.pend.valid = false) (a : Nat) (n : Width) :
    busRead a n (s.setIdleWord w) = busRead a n s := by
  simp only [busRead, State.setIdleWord_cfg, State.readRegion_setIdleWord w h]

theorem busWrite_setIdleWord (w : Word) (h : s.pend.valid = false) (a : Nat) (n : Width) (v : Word) :
    (busWrite a n v s).1.EqUpToIdleWord (busWrite a n v (s.setIdleWord w)).1 ∧
      (busWrite a n v (s.setIdleWord w)).2 = (busWrite a n v s).2 := by
  cases hg : regionOf s.cfg a n with
  | none =>
    simp only [busWrite, State.setIdleWord_cfg, hg]
    exact ⟨.of_idle w h, trivial⟩
  | some g =>
    cases hw : g.writable with
    | false =>
      simp only [busWrite, State.setIdleWord_cfg, hg, hw, if_true]
      exact ⟨.of_idle w h, trivial⟩
    | true =>
      have hs := busTxn_write_effect v hg hw (.inl h)
      have hu := busTxn_write_effect (s := s.setIdleWord w) v hg hw (.inl rfl)
      rw [busTxn] at hs hu
      rw [hs, hu]
      exact ⟨.writeRegion w h n v g, rfl⟩

theorem hostStep_setIdleWord (w : Word) (h : s.pend.valid = false) (x : Txn) :
    (hostStep x s).EqUpToIdleWord (hostStep x (s.setIdleWord w)) := by
  cases x with
  | read a n =>
    simp only [hostStep, busTxn, busRead_setIdleWord w h]
    exact .respond (.of_idle w h) _
  | write a n v =>
    obtain ⟨hstate, hresponse⟩ := busWrite_setIdleWord w h a n v
    simp only [hostStep, busTxn, hresponse]
    exact hstate.respond _

/-- The CORE's turn does nothing, RESET discards the word, and a transaction reads no more than the valid bit. -/
theorem step_setIdleWord (w : Word) (h : s.pend.valid = false) :
    ∃ t u, step s = .next t ∧ step (s.setIdleWord w) = .next u ∧ t.EqUpToIdleWord u := by
  cases ha : s.agenda with
  | nil =>
    exact ⟨_, _, (step_nil ha).trans (coreTurn_idle h),
      (step_nil ((s.setIdleWord_agenda w).trans ha)).trans (coreTurn_idle rfl), .of_idle w h⟩
  | cons e l =>
    cases e with
    | core =>
      exact ⟨_, _, (step_core ha).trans (coreTurn_idle h),
        (step_core ((s.setIdleWord_agenda w).trans ha)).trans (coreTurn_idle rfl), .of_idle (s := s.setAgenda l) w h⟩
    | host x =>
      exact ⟨_, _, step_host ha, step_host ((s.setIdleWord_agenda w).trans ha),
        hostStep_setIdleWord (s := s.setAgenda l) w h x⟩
    | reset => exact ⟨_, _, step_reset ha, step_reset ((s.setIdleWord_agenda w).trans ha), .refl _⟩

/-- Settles O49. -/
theorem pendWordIsNotReadWhileIdle : Obligations.PendWordIsNotReadWhileIdle :=
  fun _ w h => step_setIdleWord w h

end Sys2Proof.Machine

/-! PROOFS of the statements on memory and the host bus (20_memory.md): that every step proceeds, the access table, the
effect of writes, IBUF, BLK and DIGEST as the HOST sees them, and that reads have no side effect. -/

namespace Sys2Proof.Machine

variable {s t : State}

/-! ### Every command and every step answers a next state (O32) -/

/-- HASH's read of IBUF is resolved in `execHash_eq`, so its only answers are `raise` and `succeed`. -/
theorem execHash_proceeds (s : State) : ∃ t, execHash s = .next t := by
  rw [execHash_eq]
  split
  · exact ⟨_, raise_eq_next.2 rfl⟩
  · split
    · exact ⟨_, succeed_eq_next.2 rfl⟩
    · exact ⟨_, raise_eq_next.2 rfl⟩

/-- A command guarded by the phase alone proceeds either way. -/
theorem ite_succeed_raise_proceeds (p : Prop) [Decidable p] (u : State) (e : ErrCode) (s : State) :
    ∃ t, (if p then succeed u else raise e s) = .next t := by
  split
  · exact ⟨_, succeed_eq_next.2 rfl⟩
  · exact ⟨_, raise_eq_next.2 rfl⟩

theorem exec_proceeds (i : Instr) (s : State) : ∃ t, exec i s = .next t := by
  cases i with
  | init => exact ⟨_, succeed_eq_next.2 rfl⟩
  | block => exact ite_succeed_raise_proceeds _ _ _ s
  | tail n => exact ite_succeed_raise_proceeds _ _ _ s
  | final => exact ite_succeed_raise_proceeds _ _ _ s
  | hash => exact execHash_proceeds s

theorem completionStep_proceeds (s : State) : ∃ t, completionStep s = .next t := by
  cases hword : decode s.pend.word with
  | command i => rw [completionStep_command hword]; exact exec_proceeds i s
  | illegal why => exact ⟨_, completionStep_illegal hword⟩

theorem coreTurn_proceeds (s : State) : ∃ t, coreTurn s = .next t := by
  cases hbusy : s.pend.valid with
  | false => exact ⟨_, coreTurn_idle hbusy⟩
  | true => rw [coreTurn_pending hbusy]; exact completionStep_proceeds s

theorem step_proceeds (s : State) : ∃ t, step s = .next t := by
  cases ha : s.agenda with
  | nil => rw [step_nil ha]; exact coreTurn_proceeds s
  | cons e l =>
    cases e with
    | core => rw [step_core ha]; exact coreTurn_proceeds _
    | host x => exact ⟨_, step_host ha⟩
    | reset => exact ⟨_, step_reset ha⟩

/-- Settles O32. -/
theorem everyStepProceeds : Obligations.EveryStepProceeds :=
  ⟨exec_proceeds, step_proceeds⟩

/-! ### The access table (O33) -/

section AccessTable

variable {c : Config} {a : Nat} {n : Width} {g : Region}

theorem Width.bytes_pos (n : Width) : 0 < n.bytes := by cases n <;> decide

theorem Width.bytes_mem (n : Width) : n.bytes ∈ [1, 2, 4, 8] := by cases n <;> decide

theorem Width.eq_b8_of_bytes (h : n.bytes = 8) : n = .b8 := by cases n <;> simp [Width.bytes] at h ⊢

/-- An aligned access that begins below a multiple of 8 ends below it. -/
theorem aligned_end {m : Nat} (hm : m % 8 = 0) (ha : a % n.bytes = 0) (hlt : a < m) : a + n.bytes ≤ m := by
  cases n <;> simp only [Width.bytes] at ha ⊢ <;> omega

/-- Every byte region starts at a multiple of 8, so an access is aligned on the bus as it is in its region. -/
theorem region_aligned {base j : Nat} (hbase : base % 8 = 0) : (base + j) % n.bytes = 0 ↔ j % n.bytes = 0 := by
  cases n <;> simp only [Width.bytes] <;> omega

/-- The offsets of the 64-bit registers, and those of them that take a write. -/
theorem registerAt_inv (h : registerAt a = some g) :
    a ∈ [0x00, 0x08, 0x10, 0x18, 0x20, 0x28, 0x30, 0x38, 0x40, 0x48, 0x50] ∧
      (g.writable = true → a ∈ [0x00, 0x08, 0x10, 0x20, 0x28, 0x30, 0x38]) := by
  unfold registerAt at h
  split at h <;> cases h <;> decide

/-- An access is to a register with 8 bytes, or to one of the three byte regions, naturally aligned. -/
theorem regionOf_inv (h : regionOf c a n = some g) :
    (n = .b8 ∧ registerAt a = some g) ∨
    (a % n.bytes = 0 ∧
      ((0x60 ≤ a ∧ a < 0x70 ∧ g = .blk (a - 0x60)) ∨ (0x70 ≤ a ∧ a < 0x80 ∧ g = .digest (a - 0x70)) ∨
        (0x1000 ≤ a ∧ a + n.bytes ≤ 0x1000 + c.ibufBytes ∧ g = .ibuf (a - 0x1000)))) := by
  unfold regionOf at h
  split_ifs at h with h60 h8 hal h70 h80 hbuf
  · exact .inl ⟨h8, h⟩
  all_goals
    cases h
    have hal : a % n.bytes = 0 := Decidable.not_not.1 hal
  · exact .inr ⟨hal, .inl ⟨Nat.le_of_not_lt h60, h70, rfl⟩⟩
  · exact .inr ⟨hal, .inr (.inl ⟨Nat.le_of_not_lt h70, h80, rfl⟩)⟩
  · exact .inr ⟨hal, .inr (.inr ⟨hbuf.1, hbuf.2, rfl⟩)⟩

/-- The legal reads of R68 are the accesses that address a region. -/
theorem legalRead_iff (hc : c.WellFormed) : LegalRead c a n.bytes ↔ ∃ g, regionOf c a n = some g := by
  constructor
  · rintro (⟨hn, ha⟩ | ⟨-, hal, ⟨hlo, hhi⟩ | ⟨hlo, hhi⟩ | ⟨hlo, hlt⟩⟩)
    · obtain rfl := Width.eq_b8_of_bytes hn
      simp only [List.mem_cons, List.not_mem_nil, or_false] at ha
      rcases ha with rfl | rfl | rfl | rfl | rfl | rfl | rfl | rfl | rfl | rfl | rfl <;> exact ⟨_, rfl⟩
    · obtain ⟨g, hg, -⟩ := regionOf_of_legalWrite hc (.inr ⟨n.bytes_mem, hal, .inl ⟨hlo, hhi⟩⟩)
      exact ⟨g, hg⟩
    · obtain ⟨j, rfl⟩ := Nat.exists_eq_add_of_le hlo
      exact ⟨_, regionOf_digest c (by omega) ((region_aligned rfl).1 hal)⟩
    · obtain ⟨g, hg, -⟩ := regionOf_of_legalWrite hc (.inr ⟨n.bytes_mem, hal, .inr ⟨hlo, hlt⟩⟩)
      exact ⟨g, hg⟩
  · rintro ⟨g, hg⟩
    have hpos := n.bytes_pos
    obtain ⟨rfl, hreg⟩ | ⟨hal, ⟨hlo, hlt, -⟩ | ⟨hlo, hlt, -⟩ | ⟨hlo, hend, -⟩⟩ := regionOf_inv hg
    · exact .inl ⟨rfl, (registerAt_inv hreg).1⟩
    · exact .inr ⟨n.bytes_mem, hal, .inl ⟨hlo, Nat.le_of_lt_succ hlt⟩⟩
    · exact .inr ⟨n.bytes_mem, hal, .inr (.inl ⟨hlo, Nat.le_of_lt_succ hlt⟩)⟩
    · exact .inr ⟨n.bytes_mem, hal, .inr (.inr ⟨hlo, by omega⟩)⟩

/-- An access to a writable region is a legal write of R68. -/
theorem legalWrite_of_regionOf (hg : regionOf c a n = some g) (hw : g.writable = true) : LegalWrite c a n.bytes := by
  have hpos := n.bytes_pos
  obtain ⟨rfl, hreg⟩ | ⟨hal, ⟨hlo, hlt, -⟩ | ⟨-, -, rfl⟩ | ⟨hlo, hend, -⟩⟩ := regionOf_inv hg
  · exact .inl ⟨rfl, (registerAt_inv hreg).2 hw⟩
  · exact .inr ⟨n.bytes_mem, hal, .inl ⟨hlo, Nat.le_of_lt_succ hlt⟩⟩
  · exact absurd hw (by simp [Region.writable])
  · exact .inr ⟨n.bytes_mem, hal, .inr ⟨hlo, by omega⟩⟩

/-- A legal access lies inside the registers, BLK, DIGEST or IBUF. -/
theorem legalRead_inside (hc : c.WellFormed) (h : LegalRead c a n.bytes) :
    a + n.bytes ≤ 0x58 ∨ (0x60 ≤ a ∧ a + n.bytes ≤ 0x70) ∨ (0x70 ≤ a ∧ a + n.bytes ≤ 0x80) ∨
      (0x1000 ≤ a ∧ a + n.bytes ≤ 0x1000 + c.ibufBytes) := by
  obtain ⟨hn, ha⟩ | ⟨-, hal, ⟨hlo, hhi⟩ | ⟨hlo, hhi⟩ | ⟨hlo, hlt⟩⟩ := h
  · have hle : a ≤ 0x50 := by
      simp only [List.mem_cons, List.not_mem_nil, or_false] at ha
      omega
    exact .inl (by omega)
  · exact .inr (.inl ⟨hlo, aligned_end rfl hal (Nat.lt_succ_of_le hhi)⟩)
  · exact .inr (.inr (.inl ⟨hlo, aligned_end rfl hal (Nat.lt_succ_of_le hhi)⟩))
  · exact .inr (.inr (.inr ⟨hlo, aligned_inside hc hal hlt⟩))

theorem busTxn_read_busErr (h : ∀ g, regionOf s.cfg a n ≠ some g) : busTxn (.read a n) s = (s, .busErr) := by
  simp only [busTxn, busRead, Option.eq_none_iff_forall_ne_some.2 h]

/-- A write that is not legal is answered BUSERR and changes nothing, busy or not. -/
theorem busTxn_write_busErr (v : Word) (h : ¬ LegalWrite s.cfg a n.bytes) :
    busTxn (.write a n v) s = (s, .busErr) := by
  obtain ⟨hstate, hanswer⟩ | ⟨g, hg, hw, -⟩ := busWrite_inv (s := s) (a := a) (n := n) (v := v) rfl
  · exact Prod.ext hstate hanswer
  · exact absurd (legalWrite_of_regionOf hg hw) h

/-- A write to a writable region is answered OK, whether it is dropped or takes effect. -/
theorem busTxn_write_ok (v : Word) (hg : regionOf s.cfg a n = some g) (hw : g.writable = true) :
    (busTxn (.write a n v) s).2 = .ok := by
  by_cases hdrop : s.pend.valid = true ∧ g ≠ .status
  · rw [busTxn_write_dropped v hg hw hdrop.1 hdrop.2]
  · have heffect : s.pend.valid = false ∨ g = .status := by
      rcases Decidable.not_and_iff_not_or_not.1 hdrop with h | h
      · exact .inl (Bool.eq_false_iff.2 h)
      · exact .inr (Decidable.not_not.1 h)
    rw [busTxn_write_effect v hg hw heffect]

end AccessTable

/-- Settles O33: the table is `legalRead_iff`, `regionOf_of_legalWrite` and `legalWrite_of_regionOf`. -/
theorem accessTable : Obligations.AccessTable := by
  intro s a n v hc
  refine ⟨fun h => ?_, fun h => ?_, fun h => ?_, busTxn_write_busErr v, busTxn_read (g := .cmd) rfl,
    busTxn_write_status s v, legalRead_inside hc⟩
  · obtain ⟨g, hg⟩ := (legalRead_iff hc).1 h
    exact ⟨_, busTxn_read hg⟩
  · exact busTxn_read_busErr fun g hg => h ((legalRead_iff hc).2 ⟨g, hg⟩)
  · obtain ⟨g, hg, hw, -⟩ := regionOf_of_legalWrite hc h
    exact busTxn_write_ok v hg hw

/-! ### The effect of a write (O35) -/

/-- An IBUF byte after a write to IBUF: read after write and frame in one equation. -/
theorem State.ibufByte_writeRegion_ibuf (s : State) (n : Width) (v : Word) (j k : Nat) :
    (s.writeRegion n v (.ibuf j)).ibufByte k =
      if j ≤ k ∧ k < j + n.bytes then byteAt v (k - j) else s.ibufByte k := by
  rw [State.ibufByte, State.writeRegion, Memory.lookup_write]
  split <;> rfl

/-- A write to BLK of an idle block sets the bytes addressed. -/
theorem busTxn_write_blk {j : Nat} {n : Width} (v : Word) (hb : s.pend.valid = false) (hj : j < 16)
    (ha : j % n.bytes = 0) :
    busTxn (.write (0x60 + j) n v) s = ({ s with blk := setRegBytes s.blk j n.bytes v }, .ok) :=
  busTxn_write_effect v (regionOf_blk s.cfg hj ha) rfl (.inl hb)

/-- A write to IBUF of an idle block that ends inside IBUF takes effect. -/
theorem busTxn_write_ibuf {j : Nat} {n : Width} (v : Word) (hb : s.pend.valid = false)
    (ha : (0x1000 + j) % n.bytes = 0) (hj : j + n.bytes ≤ s.cfg.ibufBytes) :
    busTxn (.write (0x1000 + j) n v) s = (s.writeRegion n v (.ibuf j), .ok) :=
  busTxn_write_effect v (regionOf_ibuf_inside ha hj) rfl (.inl hb)

/-- A legal write at or above 0x60 is naturally aligned, and one above BLK ends inside IBUF. -/
theorem legalWrite_bytes {c : Config} {a : Nat} {n : Width} (hc : c.WellFormed) (h : LegalWrite c a n.bytes)
    (ha : 0x60 ≤ a) : a % n.bytes = 0 ∧ (0x70 ≤ a → a + n.bytes ≤ 0x1000 + c.ibufBytes) := by
  obtain ⟨-, hmem⟩ | ⟨-, hal, hblk | ⟨-, hlt⟩⟩ := h
  · simp only [List.mem_cons, List.not_mem_nil, or_false] at hmem
    omega
  · exact ⟨hal, fun _ => by omega⟩
  · exact ⟨hal, fun _ => aligned_inside hc hal hlt⟩

/-- Settles O35. The bytes of BLK and IBUF that a write sets are `regByte_setRegBytes` and
`State.ibufByte_writeRegion_ibuf`, whose indices start at the region where the statement's start at the window. -/
theorem writesTakeEffectUnlessBusy : Obligations.WritesTakeEffectUnlessBusy := by
  intro s a n v hc
  refine ⟨fun hb hlegal ha => ?_, busTxn_write_status s v, busTxn_write_busErr v, fun hb => ?_⟩
  · obtain ⟨g, hg, hw, hstatus⟩ := regionOf_of_legalWrite hc hlegal
    exact busTxn_write_dropped v hg hw hb fun h => ha (hstatus h)
  · refine ⟨busTxn_write_cmd v hb, busTxn_write_effect (g := .ctrl) v rfl rfl (.inl hb),
      busTxn_write_effect (g := .seed) v rfl rfl (.inl hb), busTxn_write_effect (g := .off) v rfl rfl (.inl hb),
      busTxn_write_effect (g := .length) v rfl rfl (.inl hb), busTxn_write_effect (g := .buflen) v rfl rfl (.inl hb),
      fun hlegal hlo hhi => ?_, fun hlegal hlo => ?_⟩
    · obtain ⟨hal, -⟩ := legalWrite_bytes hc hlegal hlo
      obtain ⟨b, rfl⟩ := Nat.exists_eq_add_of_le hlo
      refine ⟨_, busTxn_write_blk v hb (by omega) ((region_aligned rfl).1 hal), fun j hj => ?_⟩
      rw [regByte_setRegBytes _ _ _ _ hj]
      simp only [Nat.add_assoc, Nat.add_le_add_iff_left, Nat.add_lt_add_iff_left, Nat.add_sub_add_left]
    · obtain ⟨hal, hend⟩ := legalWrite_bytes hc hlegal (by omega)
      obtain ⟨b, rfl⟩ := Nat.exists_eq_add_of_le hlo
      refine ⟨_, busTxn_write_ibuf v hb hal (by omega), fun j => ?_⟩
      refine (State.ibufByte_writeRegion_ibuf s n v b j).trans ?_
      simp only [Nat.add_assoc, Nat.add_le_add_iff_left, Nat.add_lt_add_iff_left, Nat.add_sub_add_left]

/-! ### IBUF (O40) -/

/-- A read of IBUF returns the little-endian value of the bytes addressed. -/
theorem busTxn_read_ibuf {j : Nat} {n : Width} (ha : (0x1000 + j) % n.bytes = 0) (hj : j + n.bytes ≤ s.cfg.ibufBytes) :
    busTxn (.read (0x1000 + j) n) s = (s, .data (leBytes (fun i => s.ibufByte (j + i)) n.bytes)) :=
  busTxn_read (regionOf_ibuf_inside ha hj)

/-- Settles O40. -/
theorem ibufWriteThenRead : Obligations.IbufWriteThenRead := by
  intro s j n v hb haligned hj
  have ha : (0x1000 + j) % n.bytes = 0 := (region_aligned rfl).2 haligned
  have hwritten : ∀ i, i < n.bytes → (s.writeRegion n v (.ibuf j)).ibufByte (j + i) = byteAt v i := fun i hi => by
    rw [State.ibufByte_writeRegion_ibuf, if_pos ⟨Nat.le_add_right j i, Nat.add_lt_add_left hi j⟩, Nat.add_sub_cancel_left]
  refine ⟨_, busTxn_write_ibuf v hb ha hj, hwritten, fun k hk => ?_, ⟨_, busTxn_read_ibuf ha ?_, fun i hi => ?_⟩,
    _, busTxn_read_ibuf ha hj, toNat_leBytes _ n.bytes_le_eight⟩
  · rw [State.ibufByte_writeRegion_ibuf, if_neg (by omega)]
  · rwa [State.writeRegion_cfg]
  · rw [byteAt_leBytes _ n.bytes_le_eight hi, hwritten i hi]

/-! ### BLK as the two halves of a block (O41) -/

/-- A word whose bytes are those of a half is the value of the half. -/
theorem le64_eq_of_bytes {A : Nat → Byte} {j : Nat} {v : Word} (h : ∀ i, i < 8 → A (j + i) = byteAt v i) :
    le64 A j = v :=
  word_ext_byteAt fun i hi => (byteAt_le64 A j hi).trans (h i hi)

theorem getLsbD_le64 (A : Nat → Byte) (j : Nat) {i : Nat} (hi : i < 64) :
    (le64 A j).getLsbD i = (A (j + i / 8)).getLsbD (i % 8) := by
  rw [← byteAt_le64 A j (Nat.div_lt_of_lt_mul hi), getLsbD_byteAt _ _ (Nat.mod_lt i (by decide)), Nat.div_add_mod]

/-- The bytes an aligned write to BLK covers. -/
theorem regByte_setRegBytes_of_lt (B : Vector Byte 16) {j n i : Nat} (v : Word) (hi : i < n) (hj : j + i < 16) :
    regByte (setRegBytes B j n v) (j + i) = byteAt v i := by
  rw [regByte_setRegBytes _ _ _ _ hj, if_pos (by omega), Nat.add_sub_cancel_left]

theorem regByte_setRegBytes_of_outside (B : Vector Byte 16) {j n k : Nat} (v : Word) (hk : k < 16)
    (hout : k < j ∨ j + n ≤ k) : regByte (setRegBytes B j n v) k = regByte B k := by
  rw [regByte_setRegBytes _ _ _ _ hk, if_neg (by omega)]

/-- A byte written at BLK[3] replaces bits 31:24 of the first half. -/
theorem getLsbD_le64_setRegBytes_byte3 (B : Vector Byte 16) (v : Word) {i : Nat} (hi : i < 64) :
    (le64 (regByte (setRegBytes B 3 1 v)) 0).getLsbD i =
      if 24 ≤ i ∧ i ≤ 31 then v.getLsbD (i - 24) else (le64 (regByte B) 0).getLsbD i := by
  rw [getLsbD_le64 _ _ hi, getLsbD_le64 _ _ hi, Nat.zero_add]
  by_cases hbyte : i / 8 = 3
  · have hin : 24 ≤ i ∧ i ≤ 31 := by omega
    have hbit : i % 8 = i - 24 := by omega
    rw [if_pos hin, hbyte, regByte_setRegBytes_of_lt (j := 3) (i := 0) B v (by decide) (by decide),
      getLsbD_byteAt _ _ (Nat.mod_lt i (by decide)), hbit, Nat.mul_zero, Nat.zero_add]
  · have hout : ¬ (24 ≤ i ∧ i ≤ 31) := by omega
    rw [if_neg hout, regByte_setRegBytes_of_outside B v (by omega) (by omega)]

/-- Settles O41. -/
theorem blkWritesAreBlockHalves : Obligations.BlkWritesAreBlockHalves := by
  intro s v hb
  have hlow : ∀ j, j < 8 → regByte (setRegBytes s.blk 0 8 v) j = byteAt v j := fun j hj => by
    simpa using regByte_setRegBytes_of_lt (j := 0) s.blk v hj (by omega)
  have hlowHalf : le64 (regByte (setRegBytes s.blk 0 8 v)) 0 = v := le64_eq_of_bytes (by simpa using hlow)
  have hhigh : ∀ j, j < 8 → regByte (setRegBytes s.blk 8 8 v) (8 + j) = byteAt v j := fun j hj =>
    regByte_setRegBytes_of_lt s.blk v hj (by omega)
  exact ⟨⟨_, busTxn_write_blk (j := 0) v hb (by decide) rfl, hlow, hlowHalf,
      le64_congr fun i hi => regByte_setRegBytes_of_outside s.blk v (by omega) (.inr (Nat.le_add_right 8 i))⟩,
    ⟨_, busTxn_write_blk (j := 8) v hb (by decide) rfl, hhigh, le64_eq_of_bytes hhigh,
      le64_congr fun i hi => regByte_setRegBytes_of_outside s.blk v (by omega) (.inl (by omega))⟩,
    _, _, _, busTxn_write_blk (j := 3) (n := .b1) v hb (by decide) rfl, busTxn_read (g := .blk 0) rfl,
    busTxn_read (g := .blk 0) rfl, fun i hi => getLsbD_le64_setRegBytes_byte3 s.blk v hi⟩

/-! ### The HOST's view of DIGEST (O42) -/

theorem regByte_pack (h : Word × Word) {j : Nat} (hj : j < 16) :
    regByte (pack h) j = if j < 8 then byteAt h.1 (7 - j) else byteAt h.2 (15 - j) :=
  regByte_ofFn hj

/-- The two halves of the packed pair, read as the HOST reads them (42_finalization.md R177). -/
theorem le64_pack_low (h : Word × Word) : le64 (regByte (pack h)) 0 = bswap64 h.1 :=
  leBytes_congr fun i hi => by rw [Nat.zero_add, regByte_pack h (by omega), if_pos hi]

theorem le64_pack_high (h : Word × Word) : le64 (regByte (pack h)) 8 = bswap64 h.2 :=
  leBytes_congr fun i hi => by
    have hbyte : 15 - (8 + i) = 7 - i := by omega
    rw [regByte_pack h (by omega), if_neg (Nat.not_lt.2 (Nat.le_add_right 8 i)), hbyte]

/-- After a successful FINAL or HASH, DIGEST is the packed pair of accumulators. -/
theorem exec_success_digest {i : Instr} (hi : i = .final ∨ i = .hash) (h : exec i s = .next t) (herr : t.err = .none) :
    t.digest = pack (t.h1, t.h2) := by
  obtain ⟨e, he, rfl⟩ | ⟨l, m, p, D, rfl, ⟨-, -, hcommand⟩ | ⟨-, -, n, rfl⟩ | ⟨-, rfl, -⟩⟩ := exec_inv h
  · exact absurd herr he
  · obtain ⟨rfl, -⟩ | ⟨rfl, -⟩ := hcommand <;> simp at hi
  · simp at hi
  · simp

/-- Settles O42. -/
theorem digestView : Obligations.DigestView := by
  refine ⟨fun s => ⟨busTxn_read (g := .digest 0) rfl, busTxn_read (g := .digest 8) rfl⟩,
    fun s t i hi h herr => ?_, fun s hh1 hdigest => ?_, by decide⟩
  · rw [exec_success_digest hi h herr]
    exact ⟨le64_pack_low _, le64_pack_high _⟩
  · have hswap : bswap64 0xcbd8a7b341bd9b02 = 0x029bbd41b3a7d8cb := by decide
    have hview : le64 (regByte s.digest) 0 = 0x029bbd41b3a7d8cb := by
      rw [hdigest, le64_pack_low, hh1, hswap]
    rw [← hview]
    exact busTxn_read (g := .digest 0) rfl

/-! ### No side effect of a read (O36) -/

/-- No transaction changes a result register; recording its answer does not either. -/
theorem busTxn_results (x : Txn) (s : State) : (busTxn x s).1.results = s.results :=
  hostStep_results x s

/-- Settles O36. -/
theorem readsHaveNoSideEffect : Obligations.ReadsHaveNoSideEffect := by
  intro s a n x
  have hresults := busTxn_results x s
  simp only [State.results, Prod.mk.injEq] at hresults
  obtain ⟨hphase, herr, hh1, hh2, hmlen, hdigest⟩ := hresults
  exact ⟨rfl, hh1, hh2, hmlen, hdigest, hphase, herr⟩

end Sys2Proof.Machine

/-! PROOFS of the statements on the encoding (30_encoding.md): the decoder and the encoder agree, which words are illegal,
and the canonical words. -/

namespace Sys2Proof.Machine

variable {w : Word} {i : Instr}

/-! ### What the decoder says of a word -/

/-- The three fields of R101 make up the whole word. -/
theorem fields_append (w : Word) : (rsvdField w ++ tlenField w) ++ opcField w = w := by
  have hhigh : rsvdField w ++ tlenField w = w.extractLsb' 4 60 :=
    BitVec.extractLsb'_append_extractLsb'_eq_extractLsb' rfl
  have hall : w.extractLsb' 4 60 ++ opcField w = w.extractLsb' 0 64 :=
    BitVec.extractLsb'_append_extractLsb'_eq_extractLsb' rfl
  rw [hhigh, hall]
  exact BitVec.extractLsb'_eq_self

/-- A word with RSVD = 0 has the format of the canonical words. -/
theorem cmd64_fields (h : rsvdField w = 0) : cmd64 (tlenField w) (opcField w) = w := by
  have hword := fields_append w
  rw [h] at hword
  exact hword

theorem plainCommand_eq_command {j : Instr} : plainCommand w i = .command j ↔ tlenField w = 0 ∧ i = j := by
  rw [plainCommand]
  split
  case isTrue h => exact ⟨fun hj => ⟨h, Decoded.command.inj hj⟩, fun ⟨_, hj⟩ => congrArg _ hj⟩
  case isFalse h => exact ⟨nofun, fun ⟨h0, _⟩ => absurd h0 h⟩

theorem plainCommand_illegal_iff : (∃ why, plainCommand w i = .illegal why) ↔ tlenField w ≠ 0 := by
  rw [plainCommand]
  split
  case isTrue h => exact ⟨nofun, absurd h⟩
  case isFalse h => exact ⟨fun _ => h, fun _ => ⟨_, rfl⟩⟩

/-- The rows of the opcode table (R102) whose command takes no operand. -/
def plainOpcodes : List (BitVec 4 × Instr) := [(1, .init), (2, .block), (4, .final), (5, .hash)]

theorem encode_of_mem_plainOpcodes :
    ∀ p ∈ plainOpcodes, p.2.wellFormed = true ∧ encode p.2 = cmd64 0 p.1 := by decide

theorem opcode_of_mem_plainOpcodes :
    ∀ p ∈ plainOpcodes, p.1 ≠ 0 ∧ ¬ 6 ≤ p.1.toNat ∧ p.1 ≠ 3 := by decide

/-- `Decode(w)` of R106 by the word's fields: what every word decodes to. -/
theorem decode_cases (w : Word) :
    (rsvdField w ≠ 0 ∧ decode w = .illegal .reserved) ∨
    (rsvdField w = 0 ∧ (opcField w = 0 ∨ 6 ≤ (opcField w).toNat) ∧ decode w = .illegal .opcode) ∨
    (rsvdField w = 0 ∧ opcField w = 3 ∧ decode w = .command (.tail (tlenField w).toNat)) ∨
    (rsvdField w = 0 ∧ ∃ i, (opcField w, i) ∈ plainOpcodes ∧ decode w = plainCommand w i) := by
  by_cases hrsvd : rsvdField w = 0
  case neg => exact .inl ⟨hrsvd, if_pos hrsvd⟩
  have opc_eq {k : BitVec 4} (hk : (opcField w).toNat = k.toNat) : opcField w = k := BitVec.eq_of_toNat_eq hk
  have plain {k : BitVec 4} {i : Instr} (hk : (opcField w).toNat = k.toNat) (hi : (k, i) ∈ plainOpcodes) :
      (opcField w, i) ∈ plainOpcodes := opc_eq hk ▸ hi
  rw [decode, if_neg (not_not.2 hrsvd)]
  refine .inr ?_
  split
  case h_1 hk => exact .inr (.inr ⟨hrsvd, .init, plain (k := 1) hk (by decide), rfl⟩)
  case h_2 hk => exact .inr (.inr ⟨hrsvd, .block, plain (k := 2) hk (by decide), rfl⟩)
  case h_3 hk => exact .inr (.inl ⟨hrsvd, opc_eq hk, rfl⟩)
  case h_4 hk => exact .inr (.inr ⟨hrsvd, .final, plain (k := 4) hk (by decide), rfl⟩)
  case h_5 hk => exact .inr (.inr ⟨hrsvd, .hash, plain (k := 5) hk (by decide), rfl⟩)
  case h_6 h1 h2 h3 h4 h5 =>
    rw [imp_false] at h1 h2 h3 h4 h5
    have hrange : (opcField w).toNat = 0 ∨ 6 ≤ (opcField w).toNat := by omega
    exact .inl ⟨hrsvd, hrange.imp_left opc_eq, rfl⟩

/-! ### Decoder and encoder agree (O4) -/

/-- A word that decodes to a command is that command's canonical word. -/
theorem encode_of_decode (h : decode w = .command i) : i.wellFormed = true ∧ encode i = w := by
  obtain ⟨-, hd⟩ | ⟨-, -, hd⟩ | ⟨hrsvd, hopc, hd⟩ | ⟨hrsvd, j, hj, hd⟩ := decode_cases w
  · simp [hd] at h
  · simp [hd] at h
  · obtain rfl : .tail (tlenField w).toNat = i := Decoded.command.inj (hd.symm.trans h)
    refine ⟨decide_eq_true (by omega), ?_⟩
    rw [encode, BitVec.ofNat_toNat, BitVec.setWidth_eq, ← hopc, cmd64_fields hrsvd]
  · obtain ⟨htlen, rfl⟩ := plainCommand_eq_command.1 (hd.symm.trans h)
    obtain ⟨hwf, hencode⟩ := encode_of_mem_plainOpcodes _ hj
    refine ⟨hwf, ?_⟩
    rw [hencode, ← htlen, cmd64_fields hrsvd]

theorem decode_of_encode (hwf : i.wellFormed = true) (hw : encode i = w) : decode w = .command i :=
  hw ▸ decode_encode hwf

/-- Settles O4: each direction is an inverse law of the codec. -/
theorem decodeAndEncodeAgree : Obligations.DecodeAndEncodeAgree :=
  fun _ _ => ⟨encode_of_decode, fun ⟨hwf, hw⟩ => decode_of_encode hwf hw⟩

/-! ### The illegal words (O5) -/

/-- The words of R107. -/
theorem decode_illegal_iff :
    (∃ why, decode w = .illegal why) ↔
      (opcField w = 0 ∨ 6 ≤ (opcField w).toNat ∨ rsvdField w ≠ 0 ∨ (tlenField w ≠ 0 ∧ opcField w ≠ 3)) := by
  obtain ⟨hrsvd, hd⟩ | ⟨-, hopc, hd⟩ | ⟨hrsvd, hopc, hd⟩ | ⟨hrsvd, i, hi, hd⟩ := decode_cases w
  · exact ⟨fun _ => .inr (.inr (.inl hrsvd)), fun _ => ⟨_, hd⟩⟩
  · exact ⟨fun _ => hopc.imp_right .inl, fun _ => ⟨_, hd⟩⟩
  · simp [hd, hrsvd, hopc]
  · obtain ⟨hzero, hlarge, htail⟩ := opcode_of_mem_plainOpcodes _ hi
    rw [hd, plainCommand_illegal_iff]
    refine ⟨fun h => .inr (.inr (.inr ⟨h, htail⟩)), ?_⟩
    rintro (h | h | h | ⟨htlen, -⟩)
    · exact absurd h hzero
    · exact absurd h hlarge
    · exact absurd hrsvd h
    · exact htlen

/-- The commands that have an encoding. -/
theorem eq_of_wellFormed (h : i.wellFormed = true) :
    i = .init ∨ i = .block ∨ i = .final ∨ i = .hash ∨ ∃ n, n ≤ 15 ∧ i = .tail n := by
  cases i with
  | tail n => simpa [Instr.wellFormed] using h
  | _ => simp

/-- The completion of an illegal word at the CORE's turn. -/
theorem coreTurn_illegal {s : State} {why : Illegal} (hw : decode w = .illegal why) (hp : s.pend = ⟨true, w⟩) :
    coreTurn s = .next { s with err := .illegalCommand, pend := ⟨false, w⟩ } := by
  have hword : decode s.pend.word = .illegal why := by rw [hp, hw]
  rw [coreTurn_pending (by rw [hp]), completionStep_illegal hword, raise_fields, hp]

/-- Settles O5: the write issues any word; the two completions are the CORE's turn. -/
theorem illegalWordsIssueAndCompleteWithCode3 : Obligations.IllegalWordsIssueAndCompleteWithCode3 := by
  refine ⟨fun w => ⟨decode_illegal_iff, fun i hi => ?_, fun why hw s l => ⟨busTxn_write_cmd w, fun hp ha => ?_,
    fun hp ha => ?_⟩⟩, .opcode, by decide⟩
  · obtain ⟨hwf, -⟩ := encode_of_decode hi
    exact eq_of_wellFormed hwf
  · rw [step_nil ha, coreTurn_illegal hw hp]
  · rw [step_core ha]
    exact coreTurn_illegal hw hp

/-! ### The canonical words (O6) -/

/-- TAIL's canonical word as R108 writes it. -/
theorem encode_tail {n : Nat} (h : n ≤ 15) :
    encode (.tail n) = (0x0000000000000003 ||| BitVec.ofNat 64 n <<< 4) := by
  interval_cases n <;> decide

/-- The other four, which are constants (R108). -/
theorem encode_init : encode .init = 1 := by decide

theorem encode_block : encode .block = 2 := by decide

theorem encode_final : encode .final = 4 := by decide

theorem encode_hash : encode .hash = 5 := by decide

/-- Settles O6: the encoder writes these words, and so they decode. -/
theorem canonicalWordsDecode : Obligations.CanonicalWordsDecode :=
  ⟨decode_of_encode rfl encode_init, encode_init, decode_of_encode rfl encode_block, encode_block,
    fun _ hn => ⟨decode_of_encode (decide_eq_true hn) (encode_tail hn), encode_tail hn⟩,
    decode_of_encode rfl encode_final, encode_final, decode_of_encode rfl encode_hash, encode_hash,
    encode_tail (by decide), encode_tail (by decide)⟩

end Sys2Proof.Machine

/-! PROOFS of the statements on the block mixer (40_block_mixer.md): the key mixers, BlockMix, INIT and BLOCK. -/

namespace Sys2Proof.Machine

variable {s t : State} {w : Word}

/-! ### The key mixers (O10) -/

theorem kMix1_eq (k : Word) : kMix1 k = rotl64 (k * c1) 31 * c2 := rfl

theorem kMix2_eq (k : Word) : kMix2 k = rotl64 (k * c2) 33 * c1 := rfl

/-- Settles O10: the two mixers with `c1` and `c2` at their values (R120), and the corner values computed. -/
theorem keyMixers : Obligations.KeyMixers :=
  ⟨fun k => ⟨kMix1_eq k, kMix2_eq k⟩, by decide⟩

/-! ### The block mixer (O11) -/

theorem blockMix_fst (h : Word × Word) (k1 k2 : Word) :
    (blockMix h k1 k2).1 = (rotl64 (h.1 ^^^ kMix1 k1) 27 + h.2) * 5 + 0x52dce729 := rfl

/-- Lane 2 adds the new h1 (R126). -/
theorem blockMix_snd (h : Word × Word) (k1 k2 : Word) :
    (blockMix h k1 k2).2 = (rotl64 (h.2 ^^^ kMix2 k2) 31 + (blockMix h k1 k2).1) * 5 + 0x38495ab5 := rfl

/-- Settles O11, lane by lane. -/
theorem blockMixer : Obligations.BlockMixer :=
  fun h1 h2 k1 k2 => ⟨blockMix_fst (h1, h2) k1 k2, blockMix_snd (h1, h2) k1 k2⟩

/-! ### INIT (O19) -/

/-- INIT's next state. -/
def State.afterInit (s : State) : State :=
  { s with
    h1 := s.seed, h2 := s.seed, mlen := 0, phase := .absorb, err := .none, pend := ⟨false, s.pend.word⟩ }

theorem exec_init (s : State) : exec .init s = .next s.afterInit :=
  succeed_init (seedLanes s.seed) 0 .absorb

/-- INIT reads SEED alone, which it keeps. -/
theorem State.afterInit_afterInit (s : State) : s.afterInit.afterInit = s.afterInit := rfl

theorem exec_init_again (h : exec .init s = .next t) : exec .init t = .next t := by
  obtain rfl : s.afterInit = t := Host.Outcome.next.inj ((exec_init s).symm.trans h)
  rw [exec_init, State.afterInit_afterInit]

/-- A command without operand has one word: with its OPC, every other word has RSVD or TLEN set. -/
theorem decode_illegal_of_plainOpcode {p : BitVec 4 × Instr} (hp : p ∈ plainOpcodes) (hopc : opcField w = p.1)
    (hw : w ≠ encode p.2) : ∃ why, decode w = .illegal why := by
  obtain ⟨-, -, htail⟩ := opcode_of_mem_plainOpcodes p hp
  obtain ⟨-, hencode⟩ := encode_of_mem_plainOpcodes p hp
  rw [decode_illegal_iff]
  by_cases hrsvd : rsvdField w = 0
  · have htlen : tlenField w ≠ 0 := fun h0 => hw <| by rw [hencode, ← h0, ← hopc, cmd64_fields hrsvd]
    exact .inr (.inr (.inr ⟨htlen, hopc ▸ htail⟩))
  · exact .inr (.inr (.inl hrsvd))

/-- Settles O19: the next state is `afterInit`, and INIT's word is the row of OPC 1. -/
theorem initResult : Obligations.InitResult :=
  ⟨exec_init, fun _ _ => exec_init_again, encode_init, decode_of_encode rfl encode_init,
    fun _ hopc hw => decode_illegal_of_plainOpcode (p := (1, .init)) (by decide) hopc (encode_init ▸ hw)⟩

/-! ### BLOCK (O20) -/

theorem exec_block_absorb (h : s.phase = .absorb) :
    exec .block s = succeed ((s.setLanes (blockMix (s.h1, s.h2) (le64 (regByte s.blk) 0)
      (le64 (regByte s.blk) 8))).setMlen (s.mlen + 16)) :=
  if_pos h

theorem exec_block_not_absorb (h : s.phase ≠ .absorb) : exec .block s = raise .phaseError s :=
  if_neg h

/-- Settles O20: the phase decides between a success and PHASE_ERROR, and each writes the fields named. -/
theorem blockResult : Obligations.BlockResult := by
  refine fun s => ⟨fun h => ?_, fun h => ?_⟩
  · rw [exec_block_absorb h, succeed_block]
  · rw [exec_block_not_absorb h, raise_fields]

end Sys2Proof.Machine

/-! PROOFS of the statements on the tail absorber (41_tail_absorber.md): the packing, TailAbsorb and TAIL. -/

namespace Sys2Proof.Machine

variable {s t : State} {T : Nat → Byte} {n : Nat}

/-! ### The packing of the tail (O12) -/

@[simp] theorem byteAt_zero (i : Nat) : byteAt 0#64 i = 0#8 :=
  BitVec.extractLsb'_zero

theorem byteAt_xor (x y : Word) (i : Nat) : byteAt (x ^^^ y) i = byteAt x i ^^^ byteAt y i :=
  BitVec.extractLsb'_xor

/-- A byte shifted to position `j` is byte `j` of a word whose other bytes are 0. -/
theorem byteAt_zext64_shiftLeft (b : Byte) (j : Nat) {i : Nat} (hi : i < 8) :
    byteAt (zext64 b <<< (8 * j)) i = if i = j then b else 0 := by
  refine BitVec.eq_of_getLsbD_eq fun k hk => ?_
  have hin : 8 * i + k < 64 := by omega
  rw [getLsbD_byteAt _ _ hk, BitVec.getLsbD_shiftLeft, zext64, BitVec.getLsbD_setWidth]
  rcases Nat.lt_trichotomy i j with hlt | rfl | hgt
  · have hbelow : 8 * i + k < 8 * j := by omega
    simp [Nat.ne_of_lt hlt, hbelow]
  · have hlow : k < 64 := by omega
    simp [hin, hlow]
  · have hout : b.getLsbD (8 * i + k - 8 * j) = false := BitVec.getLsbD_of_ge b _ (by omega)
    simp [Nat.ne_of_gt hgt, hout]

/-- Byte `n` joins the bytes below it. -/
theorem xor_byte_of_lt_succ (T : Nat → Byte) (m n : Nat) :
    (if m = n then T n else 0) ^^^ (if m < n then T m else 0) = if m < n + 1 then T m else 0 := by
  rcases Nat.lt_trichotomy m n with hlt | rfl | hgt
  · simp [Nat.ne_of_lt hlt, hlt, Nat.lt_succ_of_lt hlt]
  · simp
  · simp [Nat.ne_of_gt hgt, Nat.not_lt_of_gt hgt, Nat.not_le_of_gt hgt]

/-- One round of R152's loop: tail byte `n` is XORed into byte `n` of k1 or byte `n - 8` of k2. -/
def packTailByte (T : Nat → Byte) (n : Nat) (k : Word × Word) : Word × Word :=
  if 8 ≤ n then (k.1, k.2 ^^^ (zext64 (T n) <<< (8 * (n - 8))))
  else (k.1 ^^^ (zext64 (T n) <<< (8 * n)), k.2)

theorem tailKeys_succ (T : Nat → Byte) (n : Nat) (k : Word × Word) :
    tailKeys T (n + 1) k = tailKeys T n (packTailByte T n k) := rfl

theorem byteAt_packTailByte (T : Nat → Byte) (n : Nat) (k : Word × Word) {i : Nat} (hi : i < 8) :
    byteAt (packTailByte T n k).1 i = byteAt k.1 i ^^^ (if i = n then T n else 0) ∧
      byteAt (packTailByte T n k).2 i = byteAt k.2 i ^^^ (if 8 + i = n then T n else 0) := by
  by_cases hn : 8 ≤ n
  · have hlane1 : i ≠ n := by omega
    have hlane2 : i = n - 8 ↔ 8 + i = n := by omega
    simp [packTailByte, hn, hlane1, byteAt_xor, byteAt_zext64_shiftLeft _ _ hi, hlane2]
  · have hlane2 : 8 + i ≠ n := by omega
    simp [packTailByte, hn, hlane2, byteAt_xor, byteAt_zext64_shiftLeft _ _ hi]

/-- R152's loop from any pair of keys XORs each tail byte into its own position (R151). -/
theorem byteAt_tailKeys (T : Nat → Byte) (n : Nat) (k : Word × Word) {i : Nat} (hi : i < 8) :
    byteAt (tailKeys T n k).1 i = byteAt k.1 i ^^^ (if i < n then T i else 0) ∧
      byteAt (tailKeys T n k).2 i = byteAt k.2 i ^^^ (if 8 + i < n then T (8 + i) else 0) := by
  induction n generalizing k with
  | zero => simp [tailKeys]
  | succ n ih =>
    obtain ⟨hround1, hround2⟩ := byteAt_packTailByte T n k hi
    obtain ⟨hrest1, hrest2⟩ := ih (packTailByte T n k)
    rw [tailKeys_succ, hrest1, hrest2, hround1, hround2, BitVec.xor_assoc, BitVec.xor_assoc, xor_byte_of_lt_succ,
      xor_byte_of_lt_succ]
    exact ⟨rfl, rfl⟩

/-- The first `n` bytes of `T`, and 0 from there on. -/
def zeroPad (T : Nat → Byte) (n i : Nat) : Byte := if i < n then T i else 0

theorem byteAt_tailKeys_zero (T : Nat → Byte) (n : Nat) {i : Nat} (hi : i < 8) :
    byteAt (tailKeys T n (0, 0)).1 i = zeroPad T n i ∧ byteAt (tailKeys T n (0, 0)).2 i = zeroPad T n (8 + i) := by
  simpa [zeroPad] using byteAt_tailKeys T n (0, 0) hi

/-- The keys are the two halves of the zero-padded tail. -/
theorem tailKeys_eq_le64 (T : Nat → Byte) (n : Nat) :
    tailKeys T n (0, 0) = (le64 (zeroPad T n) 0, le64 (zeroPad T n) 8) := by
  refine Prod.ext (le64_eq_of_bytes fun i hi => ?_).symm (le64_eq_of_bytes fun i hi => ?_).symm
  · rw [(byteAt_tailKeys_zero T n hi).1, Nat.zero_add]
  · rw [(byteAt_tailKeys_zero T n hi).2]

/-- Settles O12. Bits 63:56 of k2 are its byte 7, which tail byte 15 alone would supply. -/
theorem tailPacking : Obligations.TailPacking := by
  intro T n hn
  refine ⟨fun i hi => byteAt_tailKeys_zero T n hi, ?_, tailKeys_eq_le64 T n⟩
  exact (byteAt_tailKeys_zero T n (i := 7) (by decide)).2.trans (if_neg (Nat.not_lt.2 hn))

/-! ### TailAbsorb (O13) -/

/-- A half with no tail byte in it is 0. -/
theorem le64_zeroPad_of_le {j : Nat} (h : n ≤ j) : le64 (zeroPad T n) j = 0 :=
  le64_eq_of_bytes fun i _ => (if_neg (Nat.not_lt.2 (Nat.le_add_right_of_le h))).trans (byteAt_zero i).symm

theorem kMix1_zero : kMix1 0 = 0 := by decide

theorem kMix2_zero : kMix2 0 = 0 := by decide

/-- A guard that skips only the XOR of 0 changes nothing (R157). -/
theorem ite_xor_eq_xor {p : Prop} [Decidable p] {x : Word} (h : Word) (hx : ¬ p → x = 0) :
    (if p then h ^^^ x else h) = h ^^^ x := by
  split
  case isTrue => rfl
  case isFalse hp => simp [hx hp]

/-- TailAbsorb with its guards. -/
theorem tailAbsorb_eq (h : Word × Word) (T : Nat → Byte) (n : Nat) :
    tailAbsorb h T n =
      (if 1 ≤ n then h.1 ^^^ kMix1 (le64 (zeroPad T n) 0) else h.1,
       if 9 ≤ n then h.2 ^^^ kMix2 (le64 (zeroPad T n) 8) else h.2) := by
  rw [tailAbsorb, tailKeys_eq_le64]

/-- TailAbsorb without its guards: below 1 byte k1 is 0, below 9 bytes k2 is 0, and the mix of 0 is 0. -/
theorem tailAbsorb_eq_unguarded (h : Word × Word) (T : Nat → Byte) (n : Nat) :
    tailAbsorb h T n = (h.1 ^^^ kMix1 (le64 (zeroPad T n) 0), h.2 ^^^ kMix2 (le64 (zeroPad T n) 8)) := by
  have hkey1 : ¬ 1 ≤ n → kMix1 (le64 (zeroPad T n) 0) = 0 := fun hn => by
    rw [le64_zeroPad_of_le (Nat.le_of_lt_succ (Nat.lt_of_not_le hn)), kMix1_zero]
  have hkey2 : ¬ 9 ≤ n → kMix2 (le64 (zeroPad T n) 8) = 0 := fun hn => by
    rw [le64_zeroPad_of_le (Nat.le_of_lt_succ (Nat.lt_of_not_le hn)), kMix2_zero]
  rw [tailAbsorb_eq, ite_xor_eq_xor _ hkey1, ite_xor_eq_xor _ hkey2]

/-- Settles O13. -/
theorem tailAbsorbOnlyXorsTheMixedKeys : Obligations.TailAbsorbOnlyXorsTheMixedKeys :=
  fun h1 h2 T n _ => ⟨tailAbsorb_eq (h1, h2) T n, tailAbsorb_eq_unguarded (h1, h2) T n⟩

/-! ### TAIL (O21) -/

theorem zeroPad_congr {U : Nat → Byte} (h : ∀ i, i < n → T i = U i) : zeroPad T n = zeroPad U n :=
  funext fun i => ite_congr rfl (h i) fun _ => rfl

/-- TailAbsorb reads the first `n` bytes only. -/
theorem tailAbsorb_congr {U : Nat → Byte} (l : Word × Word) (h : ∀ i, i < n → T i = U i) :
    tailAbsorb l T n = tailAbsorb l U n := by
  rw [tailAbsorb_eq, tailAbsorb_eq, zeroPad_congr h]

/-- TAIL's list of the bytes it reads is BLK itself, as far as TailAbsorb can tell. -/
theorem tailAbsorb_regBytes (l : Word × Word) (B : Vector Byte 16) (hn : n ≤ 15) :
    tailAbsorb l (arrayOf (regBytes B n)) n = tailAbsorb l (regByte B) n :=
  tailAbsorb_congr l fun _ hi => arrayOf_regBytes B hi (by omega)

theorem exec_tail_absorb (h : s.phase = .absorb) (hn : n ≤ 15) :
    exec (.tail n) s = succeed (((s.setLanes (tailAbsorb (s.h1, s.h2) (regByte s.blk) n)).setMlen
      (s.mlen + BitVec.ofNat 64 n)).setPhase .tailed) := by
  rw [← tailAbsorb_regBytes _ _ hn]
  exact if_pos h

theorem exec_tail_not_absorb (h : s.phase ≠ .absorb) : exec (.tail n) s = raise .phaseError s :=
  if_neg h

/-- Settles O21: the phase decides between a success and PHASE_ERROR, and each writes the fields named. -/
theorem tailResult : Obligations.TailResult := by
  refine fun s n hn => ⟨fun h => ?_, fun h => ?_⟩
  · rw [exec_tail_absorb h hn]
    exact succeed_init _ _ _
  · rw [exec_tail_not_absorb h, raise_fields]

/-! ### The bytes TAIL does not read (O29) -/

/-- Settles O29: of BLK, TAIL reads what `tailAbsorb` reads, and it keeps BLK. -/
theorem tailIgnoresBytesBeyondItsLength : Obligations.TailIgnoresBytesBeyondItsLength := by
  intro s t B n hn hB h
  by_cases hp : s.phase = .absorb
  · rw [exec_tail_absorb hp hn, succeed_eq_next] at h
    rw [exec_tail_absorb (s := { s with blk := B }) hp hn, succeed_eq_next, h, tailAbsorb_congr _ hB]
    rfl
  · rw [exec_tail_not_absorb hp, raise_eq_next] at h
    rw [exec_tail_not_absorb (s := { s with blk := B }) hp, raise_eq_next, h]
    rfl

end Sys2Proof.Machine

/-! PROOFS of the statements on finalization (42_finalization.md): the mixers as bijections, FMix64 and FinalMix, Pack,
the empty message, FINAL and the writers of DIGEST. -/

namespace Sys2Proof.Machine

variable {s t : State}

/-! ### The steps of the mixers are bijections (O14) -/

/-- `k XOR (k >> 33)`, the XOR-shift of R170. -/
def xorShift33 (k : Word) : Word := k ^^^ (k >>> 33)

/-- The second XOR-shift undoes the first, as 33 + 33 shifts out all 64 bits. -/
theorem xorShift33_involutive : Function.Involutive xorShift33 := by
  intro k
  have hout : k >>> 33 >>> 33 = 0#64 :=
    (BitVec.shiftRight_add k 33 33).symm.trans (BitVec.ushiftRight_eq_zero (by decide))
  rw [xorShift33, xorShift33, BitVec.ushiftRight_xor_distrib, hout, BitVec.xor_zero, BitVec.xor_assoc, BitVec.xor_self,
    BitVec.xor_zero]

/-- Rotating by `r` and then by the rest of the width moves every bit back to its place. -/
theorem rotl64_rotl64 (x : Word) {r q : Nat} (hrq : r + q = 64) : rotl64 (rotl64 x r) q = x := by
  refine BitVec.eq_of_getLsbD_eq fun i hi => ?_
  rw [getLsbD_rotl64 _ (by omega) hi, getLsbD_rotl64 _ (by omega) (Nat.mod_lt _ (by decide))]
  congr 1
  omega

theorem rotl64_bijective {r : Nat} (hr : r ≤ 64) : Function.Bijective fun k : Word => rotl64 k r :=
  Function.bijective_iff_has_inverse.2
    ⟨fun k => rotl64 k (64 - r), fun k => rotl64_rotl64 k (by omega), fun k => rotl64_rotl64 k (by omega)⟩

/-- An odd factor is coprime to 2^64, so it cancels. -/
theorem mul_odd_bijective {c : Word} (hc : c.getLsbD 0 = true) : Function.Bijective fun k : Word => k * c := by
  refine Finite.injective_iff_bijective.1 fun x y hxy => BitVec.eq_of_toNat_eq ?_
  have hodd : Odd c.toNat := by
    rw [Nat.odd_iff]
    simpa [BitVec.getLsbD, Nat.testBit_zero] using hc
  have hcoprime : Nat.gcd (2 ^ 64) c.toNat = 1 := (Nat.coprime_two_left.2 hodd).pow_left 64
  have hmod : x.toNat * c.toNat ≡ y.toNat * c.toNat [MOD 2 ^ 64] := by
    simpa only [Nat.ModEq, BitVec.toNat_mul] using congrArg BitVec.toNat hxy
  exact (hmod.cancel_right_of_coprime hcoprime).eq_of_lt_of_lt x.isLt y.isLt

/-! ### FMix64 and FinalMix (O14, O15) -/

theorem fMix64_eq (k : Word) :
    fMix64 k = xorShift33 (xorShift33 (xorShift33 k * 0xff51afd7ed558ccd) * 0xc4ceb9fe1a85ec53) := rfl

theorem fMix64_bijective : Function.Bijective fMix64 :=
  have hshift := xorShift33_involutive.bijective
  have hmul1 := mul_odd_bijective (c := 0xff51afd7ed558ccd) (by decide)
  have hmul2 := mul_odd_bijective (c := 0xc4ceb9fe1a85ec53) (by decide)
  hshift.comp (hmul2.comp (hshift.comp (hmul1.comp hshift)))

theorem kMix1_bijective : Function.Bijective kMix1 :=
  have hc1 := mul_odd_bijective (c := c1) (by decide)
  have hc2 := mul_odd_bijective (c := c2) (by decide)
  hc2.comp ((rotl64_bijective (r := 31) (by decide)).comp hc1)

theorem kMix2_bijective : Function.Bijective kMix2 :=
  have hc1 := mul_odd_bijective (c := c1) (by decide)
  have hc2 := mul_odd_bijective (c := c2) (by decide)
  hc1.comp ((rotl64_bijective (r := 33) (by decide)).comp hc2)

theorem fMix64_zero : fMix64 0 = 0 := by decide

/-- Settles O14: each mixer is a composition of XOR-shifts, rotations and products with odd factors. -/
theorem mixersAreBijections : Obligations.MixersAreBijections :=
  ⟨fMix64_bijective, kMix1_bijective, kMix2_bijective, xorShift33_involutive.bijective,
    rotl64_bijective (by decide), rotl64_bijective (by decide), by decide, by decide, by decide, by decide,
    fMix64_zero, by decide, by decide⟩

/-- FinalMix lane by lane: both additions to h2 take the h1 just produced (R172). -/
theorem finalMix_fst (h : Word × Word) (len : Word) :
    (finalMix h len).1 = fMix64 ((h.1 ^^^ len) + (h.2 ^^^ len)) +
      fMix64 ((h.2 ^^^ len) + ((h.1 ^^^ len) + (h.2 ^^^ len))) := rfl

theorem finalMix_snd (h : Word × Word) (len : Word) :
    (finalMix h len).2 = fMix64 ((h.2 ^^^ len) + ((h.1 ^^^ len) + (h.2 ^^^ len))) + (finalMix h len).1 := rfl

/-- Settles O15. -/
theorem finalizationMixer : Obligations.FinalizationMixer :=
  ⟨fMix64_eq, fun h1 h2 len => Prod.ext (finalMix_fst (h1, h2) len) (finalMix_snd (h1, h2) len)⟩

/-! ### Pack (O16) -/

/-- The byte that lies `j` places below a word's most significant one. -/
theorem byteAt_seven_sub (x : Word) {j : Nat} (hj : j < 8) : byteAt x (7 - j) = x.extractLsb' (56 - 8 * j) 8 := by
  have hbit : 8 * (7 - j) = 56 - 8 * j := by omega
  rw [byteAt, hbit]

/-- Settles O16. -/
theorem packByteOrder : Obligations.PackByteOrder := by
  refine ⟨fun h1 h2 => ⟨fun j hj => ⟨?_, ?_⟩, le64_pack_low (h1, h2), le64_pack_high (h1, h2)⟩, by decide⟩
  · rw [regByte_pack _ (by omega), if_pos hj, byteAt_seven_sub _ hj]
  · have hlane : 15 - (8 + j) = 7 - j := by omega
    rw [regByte_pack _ (by omega), if_neg (by omega), hlane, byteAt_seven_sub _ hj]

/-! ### The empty message (O18) -/

/-- No tail byte leaves both lanes as they are (R157). -/
theorem tailAbsorb_zero (h : Word × Word) (T : Nat → Byte) : tailAbsorb h T 0 = h :=
  tailAbsorb_eq h T 0

/-- The empty message has neither a block nor a tail. -/
theorem mmh3_nil (seed : Word) : mmh3 seed [] = finalMix (seed, seed) 0 := by
  rw [mmh3, List.length_nil, tailAbsorb_zero]
  rfl

/-- Every step of FinalMix maps 0 to 0 (R178). -/
theorem finalMix_zero : finalMix (0, 0) 0 = (0, 0) := by decide

theorem pack_zero : pack (0, 0) = Vector.replicate 16 0 := by decide

/-- Settles O18. -/
theorem emptyMessageDigest : Obligations.EmptyMessageDigest :=
  ⟨mmh3_nil, by rw [digestOf, mmh3_nil, finalMix_zero, pack_zero]⟩

/-! ### FINAL (O22) -/

theorem exec_final_legal (h : s.phase = .absorb ∨ s.phase = .tailed) :
    exec .final s = succeed (((s.setLanes (finalMix (s.h1, s.h2) s.mlen)).setDigest
      (pack (finalMix (s.h1, s.h2) s.mlen))).setPhase .done) :=
  if_pos ((finalLegal_iff _).2 h)

theorem exec_final_illegal (h : s.phase = .idle ∨ s.phase = .done) : exec .final s = raise .phaseError s :=
  if_neg fun hlegal => by
    obtain hphase | hphase := (finalLegal_iff _).1 hlegal <;> simp [hphase] at h

/-- Settles O22: the phase decides between a success and PHASE_ERROR, and each writes the fields named. -/
theorem finalResult : Obligations.FinalResult := by
  refine fun s => ⟨fun h => ?_, fun h => ?_⟩
  · rw [exec_final_legal h, succeed_final]
  · rw [exec_final_illegal h, raise_fields]

/-! ### The writers of DIGEST (O46) -/

/-- What a successful FINAL or HASH leaves in the result registers (R180). -/
def State.Finished (t : State) : Prop :=
  t.err = .none ∧ t.phase = .done ∧ t.digest = pack (t.h1, t.h2)

/-- A command that changes DIGEST is FINAL or HASH, and it has succeeded. -/
theorem exec_digest_changed {i : Instr} (h : exec i s = .next t) (hchange : t.digest ≠ s.digest) :
    (i = .final ∨ i = .hash) ∧ t.Finished := by
  obtain ⟨e, -, rfl⟩ | ⟨l, m, p, D, rfl, ⟨-, hD, -⟩ | ⟨-, hD, -⟩ | ⟨hp, hD, hi⟩⟩ := exec_inv h
  · simp at hchange
  · simp [hD] at hchange
  · simp [hD] at hchange
  · exact ⟨hi, by simp [State.Finished, hp, hD]⟩

theorem coreTurn_digest_changed (h : coreTurn s = .next t) (hchange : t.digest ≠ s.digest) :
    s.pend.valid = true ∧ (decode s.pend.word = .command .final ∨ decode s.pend.word = .command .hash) ∧
      t.Finished := by
  obtain ⟨-, rfl⟩ | ⟨hv, h⟩ := coreTurn_inv h
  · exact absurd rfl hchange
  obtain ⟨i, hi, h⟩ | ⟨why, -, rfl⟩ := completionStep_inv h
  · obtain ⟨rfl | rfl, hfinished⟩ := exec_digest_changed h hchange
    · exact ⟨hv, .inl hi, hfinished⟩
    · exact ⟨hv, .inr hi, hfinished⟩
  · simp at hchange

theorem hostStep_digest (x : Txn) (s : State) : (hostStep x s).digest = s.digest := by
  have hresults := hostStep_results x s
  simp only [State.results, Prod.mk.injEq] at hresults
  obtain ⟨-, -, -, -, -, hdigest⟩ := hresults
  exact hdigest

/-- Settles O46: of the four kinds of step, the CORE's turns complete FINAL or HASH, the HOST's keep DIGEST, and RESET
clears it. -/
theorem onlyFinalAndHashWriteDigest : Obligations.OnlyFinalAndHashWriteDigest := by
  intro s t h hchange
  obtain ⟨-, h⟩ | ⟨l, -, h⟩ | ⟨x, l, -, rfl⟩ | ⟨l, ha, rfl⟩ := step_inv h
  · exact .inr (coreTurn_digest_changed h hchange)
  · exact .inr (coreTurn_digest_changed (s := s.setAgenda l) h hchange)
  · exact absurd (hostStep_digest x _) hchange
  · exact .inl ⟨⟨l, ha⟩, rfl⟩

end Sys2Proof.Machine

/-! PROOFS of the statements on the one-shot hash (43_oneshot_hash.md): HASH's result, its argument checks, what it
depends on, and the streamed commands as one HASH. -/

namespace Sys2Proof.Machine

variable {s t : State}

/-! ### HASH of a window that passes the checks (O23) -/

/-- The bytes of HASH's window (R205), its bounds read as the naturals they are once they have passed the checks. -/
def State.window (s : State) : List Byte := s.ibufBytes s.off.toNat s.length.toNat

theorem toNat_int64 {v : Word} (h : 0 ≤ int64 v) : (int64 v).toNat = v.toNat := by
  rw [int64, BitVec.toInt_eq_toNat_cond] at *
  split at h <;> omega

theorem exec_hash_windowOk (hb : s.bufv = true) (hw : s.WindowOk) :
    exec .hash s = succeed ((((s.setLanes (mmh3 s.seed s.window)).setMlen s.length).setDigest
      (pack (mmh3 s.seed s.window))).setPhase .done) := by
  have ⟨hoff, hlength, _⟩ := hw
  have hread : s.ibufBytes (int64 s.off).toNat (int64 s.length).toNat = s.window := by
    rw [toNat_int64 hoff, toNat_int64 hlength, State.window]
  refine (execHash_eq s).trans ?_
  rw [if_neg (by simp [hb]), if_pos hw, hread, digestOf]

/-- Settles O23. -/
theorem hashResult : Obligations.HashResult := by
  intro s hb hoff hlength hbuflen hibuf
  exact (exec_hash_windowOk hb ⟨hoff, hlength, hbuflen, hibuf⟩).trans (succeed_hash _ _ _ _)

/-! ### The argument checks (O24) -/

theorem exec_hash_nullInput (hb : s.bufv = false) : exec .hash s = raise .nullInput s :=
  (execHash_eq s).trans (if_pos hb)

theorem exec_hash_invalidArgument (hb : s.bufv = true) (hw : ¬ s.WindowOk) :
    exec .hash s = raise .invalidArgument s := by
  refine (execHash_eq s).trans ?_
  rw [if_neg (by simp [hb]), if_neg hw]

/-- R202's four conditions, each of which rejects the window. -/
theorem not_windowOk_iff :
    ¬ s.WindowOk ↔ s.off.toInt < 0 ∨ s.length.toInt < 0 ∨ (s.buflen.toNat : Int) < s.off.toInt + s.length.toInt ∨
      (s.cfg.ibufBytes : Int) < s.off.toInt + s.length.toInt := by
  simp only [State.WindowOk, int64, not_and_or, Int.not_le]

/-- IBUF has at most 2^32 bytes (00_scope.md R3), so an offset within it is not negative. -/
theorem windowOk_of_length_zero (hlength : s.length = 0) (hoff : s.off.toNat ≤ min s.buflen.toNat s.cfg.ibufBytes)
    (hc : s.cfg.WellFormed) : s.WindowOk := by
  obtain ⟨hbuflen, hibuf⟩ := le_min_iff.1 hoff
  obtain ⟨-, -, hmax, -⟩ := hc
  have hint : int64 s.off = s.off.toNat := BitVec.toInt_eq_toNat_of_lt (by omega)
  have hzero : int64 s.length = 0 := by rw [hlength]; decide
  rw [State.WindowOk, hint, hzero]
  omega

/-- The sum of the two largest operands is 2^64 - 2, beyond every IBUF (R208). -/
theorem not_windowOk_of_largest (hoff : s.off = 0x7FFFFFFFFFFFFFFF) (hlength : s.length = 0x7FFFFFFFFFFFFFFF)
    (hc : s.cfg.WellFormed) : ¬ s.WindowOk := by
  obtain ⟨-, -, hmax, -⟩ := hc
  have hsum : s.off.toInt + s.length.toInt = 2 ^ 64 - 2 := by rw [hoff, hlength]; decide
  exact not_windowOk_iff.2 (.inr (.inr (.inr (by omega))))

theorem window_of_length_zero (hlength : s.length = 0) : s.window = [] := by
  simp [State.window, State.ibufBytes, hlength]

/-- Settles O24. -/
theorem hashArgumentChecks : Obligations.HashArgumentChecks := by
  refine fun s => ⟨fun hb => ?_, fun hb hreject => ?_, fun hb hoff hlength hbuflen hibuf => ?_,
    fun hb hlength hoff hc => ?_, fun hb hoff hlength hc => ?_, fun hb hoff => ?_⟩
  · exact exec_hash_nullInput hb
  · exact exec_hash_invalidArgument hb (not_windowOk_iff.2 hreject)
  · exact ⟨_, exec_hash_windowOk hb ⟨hoff, hlength, hbuflen, hibuf⟩, by simp⟩
  · have hexec := exec_hash_windowOk hb (windowOk_of_length_zero hlength hoff hc)
    rw [window_of_length_zero hlength] at hexec
    exact ⟨_, hexec, by simp [hlength, digestOf]⟩
  · exact exec_hash_invalidArgument hb (not_windowOk_of_largest hoff hlength hc)
  · exact exec_hash_invalidArgument hb (not_windowOk_iff.2 (.inl (by rw [hoff]; decide)))

/-! ### What HASH depends on (O30) -/

/-- The contents of the result registers, as `State.results` gives them. -/
abbrev Results := Phase × ErrCode × Word × Word × Word × Vector Byte 16

/-- The result registers after a command that has succeeded. -/
def successResults (p : Phase) (h : Word × Word) (m : Word) (D : Vector Byte 16) : Results :=
  (p, .none, h.1, h.2, m, D)

/-- The commands complete and leave `r` in the result registers. -/
def Leaves (o : Host.Outcome State Fault Refusal) (r : Results) : Prop :=
  ∃ t, o = .next t ∧ t.results = r

theorem State.results_eq_successResults {p : Phase} {h : Word × Word} {m : Word} {D : Vector Byte 16} :
    t.results = successResults p h m D ↔
      t.phase = p ∧ t.err = .none ∧ t.h1 = h.1 ∧ t.h2 = h.2 ∧ t.mlen = m ∧ t.digest = D := by
  simp only [State.results, successResults, Prod.mk.injEq]

/-- A successful HASH of a message `M` of `m` bytes under `seed` leaves these results. -/
def hashResults (seed : Word) (M : List Byte) (m : Word) : Results :=
  successResults .done (mmh3 seed M) m (pack (mmh3 seed M))

theorem agree_of_hashResults {u v : State} {seed m : Word} {M : List Byte} (hu : u.results = hashResults seed M m)
    (hv : v.results = hashResults seed M m) :
    u.err = .none ∧ v.err = .none ∧ u.h1 = v.h1 ∧ u.h2 = v.h2 ∧ u.digest = v.digest ∧ u.phase = v.phase ∧
      u.mlen = v.mlen := by
  obtain ⟨hphase, herr, hh1, hh2, hmlen, hdigest⟩ := State.results_eq_successResults.1 hu
  obtain ⟨hphase', herr', hh1', hh2', hmlen', hdigest'⟩ := State.results_eq_successResults.1 hv
  exact ⟨herr, herr', hh1.trans hh1'.symm, hh2.trans hh2'.symm, hdigest.trans hdigest'.symm, hphase.trans hphase'.symm,
    hmlen.trans hmlen'.symm⟩

theorem exec_hash_leaves (hb : s.bufv = true) (hw : s.WindowOk) :
    Leaves (exec .hash s) (hashResults s.seed s.window s.length) :=
  ⟨_, exec_hash_windowOk hb hw, by simp [hashResults, State.results_eq_successResults]⟩

theorem window_congr (hlength : s.length = t.length)
    (hbytes : ∀ k, k < s.length.toNat → s.ibufByte (s.off.toNat + k) = t.ibufByte (t.off.toNat + k)) :
    s.window = t.window := by
  rw [State.window, State.window, ← hlength]
  exact List.map_congr_left fun k hk => hbytes k (List.mem_range.1 hk)

/-- Settles O30: the results are a function of SEED, the window and LENGTH. -/
theorem hashDependsOnSeedAndWindowOnly : Obligations.HashDependsOnSeedAndWindowOnly := by
  intro s t hbs hbt hws hwt hseed hlength hbytes
  have hhash := exec_hash_leaves hbt hwt
  rw [← hseed, ← hlength, ← window_congr hlength hbytes] at hhash
  obtain ⟨u, hu, hu_results⟩ := exec_hash_leaves hbs hws
  obtain ⟨v, hv, hv_results⟩ := hhash
  obtain ⟨herru, herrv, hh1, hh2, hdigest, hphase, hmlen⟩ := agree_of_hashResults hu_results hv_results
  exact ⟨u, v, hu, hv, hh1, hh2, hmlen, hdigest, hphase, herru.trans herrv.symm⟩

/-! ### MMH3 of a message given as an array -/

theorem absorbBlocks_congr {A B : Nat → Byte} (seed : Word) {nblocks : Nat} (h : ∀ i, i < 16 * nblocks → A i = B i) :
    absorbBlocks seed A nblocks = absorbBlocks seed B nblocks := by
  induction nblocks with
  | zero => rfl
  | succ b ih =>
    have hlow : le64 A (16 * b) = le64 B (16 * b) := le64_congr fun i hi => h _ (by omega)
    have hhigh : le64 A (16 * b + 8) = le64 B (16 * b + 8) := le64_congr fun i hi => h _ (by omega)
    rw [absorbBlocks, absorbBlocks, ih fun i hi => h i (by omega), hlow, hhigh]

theorem mmh3_map_range (seed : Word) (M : Nat → Byte) (n : Nat) :
    mmh3 seed ((List.range n).map M) =
      finalMix (tailAbsorb (absorbBlocks seed M (n / 16)) (fun j => M (16 * (n / 16) + j)) (n % 16))
        (BitVec.ofNat 64 n) := by
  have hlength : ((List.range n).map M).length = n := by simp
  have hblocks : absorbBlocks seed (arrayOf ((List.range n).map M)) (n / 16) = absorbBlocks seed M (n / 16) :=
    absorbBlocks_congr seed fun i hi => arrayOf_map_range M (by omega)
  have htail (h : Word × Word) : tailAbsorb h (arrayOf (((List.range n).map M).drop (16 * (n / 16)))) (n % 16) =
      tailAbsorb h (fun j => M (16 * (n / 16) + j)) (n % 16) :=
    tailAbsorb_congr h fun j hj => by rw [arrayOf_drop, arrayOf_map_range M (by omega)]
  rw [mmh3, hlength, hblocks, htail]

/-! ### The streamed commands (O31) -/

section Streamed

variable {p : Phase} {h : Word × Word} {m : Word} {D : Vector Byte 16}

theorem State.regByte_stage (t : State) (B : Nat → Byte) {j : Nat} (hj : j < 16) :
    regByte (t.stage B).blk j = B j :=
  regByte_ofFn hj

/-- A half of BLK, with the bytes of `M` from `k` on staged. -/
theorem State.le64_stage (t : State) (M : Nat → Byte) (k : Nat) {j : Nat} (hj : j ≤ 8) :
    le64 (regByte (t.stage fun j => M (k + j)).blk) j = le64 M (k + j) :=
  le64_congr fun i hi => by rw [t.regByte_stage _ (by omega), Nat.add_assoc]

theorem State.stage_results (t : State) (B : Nat → Byte) : (t.stage B).results = t.results := rfl

/-- One link of a sequence: the next command runs, as the last one has ended with ERR = NONE. -/
theorem Leaves.andThen {o : Host.Outcome State Fault Refusal} {f : State → Host.Outcome State Fault Refusal}
    {r : Results} (ho : Leaves o (successResults p h m D))
    (hf : ∀ t : State, t.results = successResults p h m D → Leaves (f t) r) : Leaves (thenCommand o f) r := by
  obtain ⟨t, rfl, ht⟩ := ho
  obtain ⟨-, herr, -⟩ := State.results_eq_successResults.1 ht
  have hrun : thenCommand (.next t) f = f t := if_pos herr
  exact hrun ▸ hf t ht

theorem exec_init_leaves (s : State) : Leaves (exec .init s) (successResults .absorb (seedLanes s.seed) 0 s.digest) :=
  ⟨_, exec_init s, rfl⟩

theorem exec_block_leaves (ht : t.results = successResults .absorb h m D) :
    Leaves (exec .block t)
      (successResults .absorb (blockMix h (le64 (regByte t.blk) 0) (le64 (regByte t.blk) 8)) (m + 16) D) := by
  obtain ⟨hphase, -, hh1, hh2, hmlen, hdigest⟩ := State.results_eq_successResults.1 ht
  exact ⟨_, exec_block_absorb hphase, by simp [State.results_eq_successResults, hphase, hh1, hh2, hmlen, hdigest]⟩

theorem exec_tail_leaves {n : Nat} (hn : n ≤ 15) (ht : t.results = successResults .absorb h m D) :
    Leaves (exec (.tail n) t)
      (successResults .tailed (tailAbsorb h (regByte t.blk) n) (m + BitVec.ofNat 64 n) D) := by
  obtain ⟨hphase, -, hh1, hh2, hmlen, hdigest⟩ := State.results_eq_successResults.1 ht
  exact ⟨_, exec_tail_absorb hphase hn, by simp [State.results_eq_successResults, hh1, hh2, hmlen, hdigest]⟩

theorem exec_final_leaves (hp : p = .absorb ∨ p = .tailed) (ht : t.results = successResults p h m D) :
    Leaves (exec .final t) (successResults .done (finalMix h m) m (pack (finalMix h m))) := by
  obtain ⟨hphase, -, hh1, hh2, hmlen, -⟩ := State.results_eq_successResults.1 ht
  exact ⟨_, exec_final_legal (hphase ▸ hp), by simp [State.results_eq_successResults, hh1, hh2, hmlen]⟩

/-- INIT and the BLOCKs are the block loop of MMH3, and MLEN counts the bytes absorbed. -/
theorem streamBlocks_leaves (s : State) (M : Nat → Byte) (nblocks : Nat) :
    Leaves (streamBlocks s M nblocks)
      (successResults .absorb (absorbBlocks s.seed M nblocks) (BitVec.ofNat 64 (16 * nblocks)) s.digest) := by
  induction nblocks with
  | zero => exact exec_init_leaves s
  | succ b ih =>
    refine ih.andThen fun t ht => ?_
    have hblock := exec_block_leaves ((t.stage_results fun j => M (16 * b + j)).trans ht)
    have hmlen : BitVec.ofNat 64 (16 * b) + 16 = BitVec.ofNat 64 (16 * (b + 1)) := (BitVec.ofNat_add _ 16).symm
    rwa [t.le64_stage M _ (by decide), t.le64_stage M _ (by decide), hmlen] at hblock

theorem streamMessage_leaves (s : State) (M : Nat → Byte) (n : Nat) (pad : Nat → Byte) :
    Leaves (streamMessage s M n pad) (hashResults s.seed ((List.range n).map M) (BitVec.ofNat 64 n)) := by
  rw [hashResults, mmh3_map_range]
  refine Leaves.andThen (p := .tailed) (D := s.digest) ?_ fun _ => exec_final_leaves (.inr rfl)
  refine (streamBlocks_leaves s M (n / 16)).andThen fun t ht => ?_
  have htail := exec_tail_leaves (n := n % 16) (by omega) ((t.stage_results fun j =>
    if j < n % 16 then M (16 * (n / 16) + j) else pad j).trans ht)
  rw [← BitVec.ofNat_add, Nat.div_add_mod] at htail
  rwa [tailAbsorb_congr (U := fun j => M (16 * (n / 16) + j)) _ fun j hj => by
    rw [State.regByte_stage t _ (by omega), if_pos hj]] at htail

/-- Without tail bytes TailAbsorb changes no lane, so the TAIL may be left out. -/
theorem streamWithoutTail_leaves (s : State) (M : Nat → Byte) {n : Nat} (hn : n % 16 = 0) :
    Leaves (streamWithoutTail s M n) (hashResults s.seed ((List.range n).map M) (BitVec.ofNat 64 n)) := by
  have hblocks := streamBlocks_leaves s M (n / 16)
  rw [Nat.mul_div_cancel' (Nat.dvd_of_mod_eq_zero hn)] at hblocks
  rw [hashResults, mmh3_map_range, hn, tailAbsorb_zero]
  exact hblocks.andThen fun _ => exec_final_leaves (.inl rfl)

end Streamed

/-- Settles O31: the streamed message leaves what HASH leaves, and so it does without its TAIL when that has no byte. -/
theorem streamedCommandsEqualHash : Obligations.StreamedCommandsEqualHash := by
  intro s w pad hb hw hseed M n
  have hlength : BitVec.ofNat 64 n = w.length := by simp [n]
  have hstream := streamMessage_leaves s M n pad
  have hshort := streamWithoutTail_leaves s M (n := n)
  rw [← hseed, hlength] at hstream hshort
  obtain ⟨v, hv, hv_results⟩ := exec_hash_leaves hb hw
  obtain ⟨t, ht, ht_results⟩ := hstream
  obtain ⟨herr, herrv, hh1, hh2, hdigest, hphase, hmlen⟩ := agree_of_hashResults ht_results hv_results
  refine ⟨t, v, ht, hv, herr, herrv, hh1, hh2, hdigest, hphase, hmlen, fun hn => ?_⟩
  obtain ⟨x, hx, hx_results⟩ := hshort hn
  obtain ⟨herrx, -, hagree⟩ := agree_of_hashResults hx_results hv_results
  exact ⟨x, hx, herrx, hagree⟩

end Sys2Proof.Machine

/-! PROOFS of the statements on errors (60_exceptions.md): what a failing command writes, the phase table and the cause
of each code. -/

namespace Sys2Proof.Machine

variable {s t : State}

/-! ### A failing completion (O26) -/

theorem exec_failure {i : Instr} (h : exec i s = .next t) (herr : t.err ≠ .none) : t = s.complete t.err := by
  obtain ⟨e, -, rfl⟩ | ⟨l, m, p, D, rfl, -⟩ := exec_inv h
  · rw [State.complete_err]
  · exact absurd (State.complete_err _ _) herr

theorem completionStep_failure (h : completionStep s = .next t) (herr : t.err ≠ .none) : t = s.complete t.err := by
  obtain ⟨i, -, h⟩ | ⟨why, -, rfl⟩ := completionStep_inv h
  · exact exec_failure h herr
  · rw [State.complete_err]

/-- Settles O26: a failure is `State.complete` with its code, and it leaves the block idle, so that a write to CMD
issues. -/
theorem failingCommandWritesOnlyErr : Obligations.FailingCommandWritesOnlyErr := by
  intro s t h herr
  have hidle : t.pend.valid = false := by rw [completionStep_pend h]
  exact ⟨completionStep_failure h herr,
    ⟨_, busTxn_read_status t, t.statusWord_err, t.statusWord_busy.trans hidle⟩, fun w => busTxn_write_cmd w hidle⟩

/-! ### The phase table (O25) -/

theorem exec_block_legality (h : exec .block s = .next t) :
    if s.phase = .absorb then t.err = .none ∧ t.phase = .absorb else t.err = .phaseError ∧ t.phase = s.phase := by
  obtain ⟨hphase, rfl⟩ | ⟨hphase, rfl⟩ := execBlock_inv h <;> simp [hphase]

theorem exec_tail_legality {n : Nat} (h : exec (.tail n) s = .next t) :
    if s.phase = .absorb then t.err = .none ∧ t.phase = .tailed else t.err = .phaseError ∧ t.phase = s.phase := by
  obtain ⟨hphase, rfl⟩ | ⟨hphase, rfl⟩ := execTail_inv h <;> simp [hphase]

theorem exec_final_legality (h : exec .final s = .next t) :
    if s.phase = .absorb ∨ s.phase = .tailed then t.err = .none ∧ t.phase = .done
    else t.err = .phaseError ∧ t.phase = s.phase := by
  obtain ⟨hphase, rfl⟩ | ⟨hphase, rfl⟩ := execFinal_inv h <;> simp [hphase]

/-- HASH asks for no phase. -/
theorem exec_hash_legality (h : exec .hash s = .next t) :
    (t.err = .none ∧ t.phase = .done) ∨ ((t.err = .nullInput ∨ t.err = .invalidArgument) ∧ t.phase = s.phase) := by
  obtain ⟨-, rfl⟩ | ⟨-, -, rfl⟩ | ⟨-, -, rfl⟩ := execHash_inv h <;> simp

theorem step_illegal {why : Illegal} (hv : s.pend.valid = true) (hw : decode s.pend.word = .illegal why)
    (ha : s.agenda = []) : step s = .next (s.complete .illegalCommand) := by
  rw [step_nil ha, coreTurn_pending hv, completionStep_illegal hw, raise]

/-- Settles O25: every command proceeds, and its row of the table says to which phase. -/
theorem phaseLegalityTable : Obligations.PhaseLegalityTable := by
  intro s
  obtain ⟨u, hblock⟩ := exec_proceeds .block s
  obtain ⟨v, hfinal⟩ := exec_proceeds .final s
  obtain ⟨w, hhash⟩ := exec_proceeds .hash s
  refine ⟨⟨_, exec_init s, rfl, rfl⟩, ⟨u, hblock, exec_block_legality hblock⟩, fun n => ?_,
    ⟨v, hfinal, exec_final_legality hfinal⟩, ⟨w, hhash, exec_hash_legality hhash⟩, fun why hv hw ha =>
    ⟨_, step_illegal hv hw ha, State.complete_err _ _, State.complete_phase _ _⟩⟩
  obtain ⟨t, htail⟩ := exec_proceeds (.tail n) s
  exact ⟨t, htail, exec_tail_legality htail⟩

/-! ### The cause of each code (O27) -/

/-- The code a completion reports, its causes asked for in the order of R226. -/
def State.errOf (s : State) : Decoded → ErrCode
  | .illegal _ => .illegalCommand
  | .command .init => .none
  | .command .block | .command (.tail _) => if s.phase = .absorb then .none else .phaseError
  | .command .final => if s.phase = .idle ∨ s.phase = .done then .phaseError else .none
  | .command .hash => if s.bufv = false then .nullInput else if s.WindowOk then .none else .invalidArgument

theorem State.errOf_hash_nullInput (hb : s.bufv = false) : s.errOf (.command .hash) = .nullInput :=
  if_pos hb

theorem State.errOf_hash_windowOk (hb : s.bufv = true) (hw : s.WindowOk) : s.errOf (.command .hash) = .none := by
  rw [State.errOf, if_neg (by simp [hb]), if_pos hw]

theorem State.errOf_hash_not_windowOk (hb : s.bufv = true) (hw : ¬ s.WindowOk) :
    s.errOf (.command .hash) = .invalidArgument := by
  rw [State.errOf, if_neg (by simp [hb]), if_neg hw]

theorem exec_err {i : Instr} (h : exec i s = .next t) : t.err = s.errOf (.command i) := by
  cases i with
  | init => rw [execInit_inv h]; rfl
  | block => obtain ⟨hphase, rfl⟩ | ⟨hphase, rfl⟩ := execBlock_inv h <;> simp [State.errOf, hphase]
  | tail n => obtain ⟨hphase, rfl⟩ | ⟨hphase, rfl⟩ := execTail_inv h <;> simp [State.errOf, hphase]
  | final =>
    obtain ⟨hphase | hphase, rfl⟩ | ⟨hphase, rfl⟩ := execFinal_inv h
    · simp [State.errOf, hphase]
    · simp [State.errOf, hphase]
    · cases hp : s.phase <;> simp [State.errOf, hp] at hphase ⊢
  | hash =>
    obtain ⟨hb, rfl⟩ | ⟨hb, hw, rfl⟩ | ⟨hb, hw, rfl⟩ := execHash_inv h
    · rw [State.complete_err, State.errOf_hash_nullInput hb]
    · rw [State.complete_err, State.errOf_hash_not_windowOk hb hw]
    · rw [State.complete_err, State.errOf_hash_windowOk hb hw]

theorem completionStep_err (h : completionStep s = .next t) : t.err = s.errOf (decode s.pend.word) := by
  obtain ⟨i, hi, h⟩ | ⟨why, hw, rfl⟩ := completionStep_inv h
  · rw [hi, exec_err h]
  · rw [hw, State.complete_err, State.errOf]

/-- Settles O27: the code is `errOf` of the decoded word, in whose rows each code stands under its cause alone. -/
theorem eachErrorCodeHasItsCause : Obligations.EachErrorCodeHasItsCause := by
  refine ⟨fun s t h => ?_, rfl, rfl, rfl, rfl, rfl, ErrCode.code_le_four⟩
  rw [completionStep_err h, ← not_windowOk_iff]
  cases decode s.pend.word with
  | illegal why => simp [State.errOf]
  | command i =>
    cases i with
    | init => simp [State.errOf]
    | block => by_cases hphase : s.phase = .absorb <;> simp [State.errOf, hphase]
    | tail n => by_cases hphase : s.phase = .absorb <;> simp [State.errOf, hphase]
    | final => by_cases hphase : s.phase = .idle ∨ s.phase = .done <;> simp [State.errOf, hphase]
    | hash =>
      cases hb : s.bufv with
      | false => simp [State.errOf_hash_nullInput hb]
      | true =>
        by_cases hw : s.WindowOk
        · simp [State.errOf_hash_windowOk hb hw, hw]
        · simp [State.errOf_hash_not_windowOk hb hw, hw]

end Sys2Proof.Machine

/-! PROOFS of the statements on reset and hazards (70_reset_and_hazards.md): the completion of a pending command, RESET,
and the power-on state. -/

namespace Sys2Proof.Machine

variable {s t : State}

/-! ### A pending command completes (O44) -/

theorem run_succ_of_step {M : Host.Core} {u v : M.State} (h : M.step u = .next v) (k : Nat) :
    M.run (k + 1) u = M.run k v := by
  rw [Host.Core.run, h]

/-- A completion takes nothing off the agenda and answers no transaction. -/
theorem completionStep_agenda_responses (h : completionStep s = .next t) :
    t.agenda = s.agenda ∧ t.responses = s.responses := by
  obtain ⟨i, -, h⟩ | ⟨why, -, rfl⟩ := completionStep_inv h
  · obtain ⟨-, -, -, -, -, -, -, -, -, -, hagenda, hresponses⟩ := exec_keeps_operands h
    exact ⟨hagenda, hresponses⟩
  · simp

/-- With nothing left on the agenda, the next step completes the pending command. -/
theorem step_nil_pending (ha : s.agenda = []) (hb : s.pend.valid = true) :
    ∃ t, step s = .next t ∧ completionStep s = .next t := by
  obtain ⟨t, ht⟩ := completionStep_proceeds s
  exact ⟨t, by rw [step_nil ha, coreTurn_pending hb, ht], ht⟩

/-- A HOST transaction leaves the pending command and the rest of the agenda, and is answered once. -/
theorem hostStep_pending_frame (x : Txn) (hb : s.pend.valid = true) :
    (hostStep x s).pend = s.pend ∧ (hostStep x s).agenda = s.agenda ∧
      (hostStep x s).responses.length = s.responses.length + 1 := by
  obtain ⟨o, rs, hx⟩ := hostStep_pending x hb
  refine ⟨by rw [hx]; rfl, by rw [hx]; rfl, ?_⟩
  rw [hostStep, State.respond_responses, busTxn_responses, List.length_cons]

/-- Settles O44, by induction on the transactions still to come: each keeps the command pending, and after the last one
the CORE completes it. -/
theorem pendingCommandCompletes : Obligations.PendingCommandCompletes := by
  intro s xs hb ha
  induction xs generalizing s with
  | nil =>
    obtain ⟨t, hstep, hdone⟩ := step_nil_pending ha hb
    obtain ⟨hagenda, hresponses⟩ := completionStep_agenda_responses hdone
    exact ⟨t, run_succ_of_step (M := Sys2Proof.core) hstep 0, completionStep_pend hdone,
      hagenda.trans ha, congrArg List.length hresponses⟩
  | cons x xs ih =>
    obtain ⟨hpend, hagenda, hlength⟩ := hostStep_pending_frame (s := s.setAgenda (xs.map Event.host)) x hb
    rw [State.setAgenda_pend] at hpend
    obtain ⟨t, hrun, htpend, htagenda, htlength⟩ := ih _ (hpend ▸ hb) hagenda
    refine ⟨t, (run_succ_of_step (M := Sys2Proof.core) (step_host ha) _).trans hrun, hpend ▸ htpend, htagenda, ?_⟩
    rw [htlength, hlength, State.setAgenda_responses, List.length_cons]
    omega

/-! ### RESET (O47) -/

theorem regByte_replicate_zero {j : Nat} (hj : j < 16) : regByte (Vector.replicate 16 0) j = 0 := by
  rw [regByte_of_lt hj, Vector.getElem_replicate]

/-- No byte of IBUF is recorded after RESET, so each reads as the draw of the new epoch. -/
theorem State.ibufByte_resetStep (s : State) (j : Nat) : s.resetStep.ibufByte j = Config.ibufDraw (s.epoch + 1) j := rfl

theorem State.statusWord_resetStep (s : State) : s.resetStep.statusWord = 0 := by
  rw [State.statusWord]
  simp [State.busy, State.reset, Phase.code, ErrCode.code]

theorem State.ctrlWord_resetStep (s : State) : s.resetStep.ctrlWord = 0 := by
  rw [State.ctrlWord_eq]
  simp [State.reset]

theorem busTxn_read_ctrl (s : State) : busTxn (.read 0x10 .b8) s = (s, .data s.ctrlWord) :=
  busTxn_read (g := .ctrl) rfl

/-- Settles O47: the step is `resetStep`, every field of which is the power-on value or one that RESET keeps. -/
theorem resetRestoresEveryRegister : Obligations.ResetRestoresEveryRegister := by
  refine ⟨fun s l ha => ⟨(s.setAgenda l).resetStep, step_reset ha, rfl, rfl, rfl, rfl, rfl, rfl, rfl, rfl, rfl, rfl,
    rfl, rfl, fun j => regByte_replicate_zero, fun j => regByte_replicate_zero, State.ibufByte_resetStep _, ?_, ?_,
    busTxn_read (g := .hashSize) rfl, rfl⟩, fun j => rfl⟩
  · rw [busTxn_read_status, State.statusWord_resetStep]
  · rw [busTxn_read_ctrl, State.ctrlWord_resetStep]

/-! ### Both forms of use straight after RESET (O48) -/

/-- Straight after RESET, INIT leaves both lanes and the length 0, which FINAL maps to 0 (42_finalization.md R178). -/
theorem exec_final_afterInit_resetStep (s : State) :
    exec .final s.resetStep.afterInit =
      succeed (((s.resetStep.afterInit.setLanes (0, 0)).setDigest (Vector.replicate 16 0)).setPhase .done) := by
  have hmix : finalMix (s.resetStep.afterInit.h1, s.resetStep.afterInit.h2) s.resetStep.afterInit.mlen = (0, 0) :=
    finalMix_zero
  rw [exec_final_legal (.inl rfl), hmix, pack_zero]

/-- Settles O48: FINAL after INIT finalizes zeros, and RESET clears CTRL.BUFV. -/
theorem resetSufficesForBothForms : Obligations.ResetSufficesForBothForms :=
  fun s => ⟨⟨_, _, exec_init _, exec_final_afterInit_resetStep s, rfl, rfl⟩, _, exec_hash_nullInput rfl, rfl⟩

/-! ### The power-on state (O51) -/

/-- Settles O51: the IBUF record is empty, the phase is IDLE with its results zero, and the parameters meet R3. -/
theorem resetStateMeetsTheInvariant : Obligations.ResetStateMeetsTheInvariant where
  ibufCanonical := List.Pairwise.nil
  ibufInside := by simp [State.reset]
  parameters := by decide
  idleFresh := fun _ => ⟨rfl, rfl, rfl, rfl⟩
  absorbWholeBlocks := by simp [State.reset]
  doneDigest := by simp [State.reset]

end Sys2Proof.Machine
